-- ==== Sys2Proof/Word.lean ====
section
/-! DEFINITION. The two widths the block works on: a byte (its unit of input, R24) and a 16-bit field (R21). -/

namespace Sys2Proof

/-- A byte, 8 bits (00_scope.md, section 5). -/
abbrev Byte := BitVec 8

/-- A 16-bit quantity: MSG_ID, PAYLOAD_LEN, CRC16 and the CRC register (R21, R53). -/
abbrev Half := BitVec 16

end Sys2Proof
end

