-- ==== Sys2Proof/Config.lean ====
section
/-! DEFINITION. The constants S3P fixes (R4 to R9; their values are taken as the rules give them, log 11) and the
one parameter the spec leaves open, MAX_FEED (R10, log 1). -/

namespace Sys2Proof.Config

/-- START, the first byte of every frame (R4). -/
def startByte : Byte := 0x7E#8

/-- END, the last byte of every frame (R5). -/
def endByte : Byte := 0x7F#8

/-- MIN_FRAME, the length of a frame with an empty topic and an empty payload (R6). -/
def minFrame : Nat := 11

/-- OVF_THRESHOLD, the overflow threshold of the reassembly buffer (R7). -/
def ovfThreshold : Nat := 512

/-- The CRC's generator polynomial, its `x^16` term implicit (R8, R53). -/
def crcPoly : Half := 0x1021#16

/-- The CRC register before the first byte (R8, R52). -/
def crcInit : Half := 0xFFFF#16

/-- The CRC's final XOR value (R8, R54, log 12). -/
def crcXorOut : Half := 0x0000#16

/-- The longest topic TOPIC_LEN can express (R9). -/
def maxTopic : Nat := 255

/-- The longest payload PAYLOAD_LEN can express (R9). -/
def maxPayload : Nat := 65535

/-- The longest chunk the LEN field of FEED can express, the upper bound of MAX_FEED (R10, R46). -/
def maxLen : Nat := 65535

/-- The open choice behind MAX_FEED: one of 65535 values, and no proof can see which (R10 "OPEN parameter", log 1). -/
opaque freeMaxFeed : Fin 65535

/-- MAX_FEED, fixed for a whole run, `1 <= MAX_FEED <= 65535` (R10, log 1). -/
def maxFeed : Nat := freeMaxFeed.val + 1

/-- QOS code of AtMostOnce (R41). The block only passes QOS through. -/
def qosAtMostOnce : Byte := 0x00#8

/-- QOS code of AtLeastOnce (R41). -/
def qosAtLeastOnce : Byte := 0x01#8

/-- TYPE code of Publish (R39). -/
def typePublish : Byte := 0x01#8

/-- TYPE code of Subscribe (R39). -/
def typeSubscribe : Byte := 0x02#8

/-- TYPE code of Ack (R39). -/
def typeAck : Byte := 0x03#8

/-- TYPE code of Ping (R39). -/
def typePing : Byte := 0x04#8

/-- TYPE code of Pong (R39). -/
def typePong : Byte := 0x05#8

end Sys2Proof.Config
end

