-- ==== Sys2Proof/Machine/Bytes.lean ====
section
/-! DEFINITION. The spec's notation for byte sequences (00_scope.md, section 5): indexing, inclusive slices, the search
`find`, and the big-endian 16-bit field (R21). -/

namespace Sys2Proof.Machine

/-- `s[i]`. Every index a rule reads is below `len(s)` (R68); beyond it this answers 0, which no rule ever sees (log 5). -/
def byteAt (s : List Byte) (i : Nat) : Byte := s.getD i 0#8

/-- `s[a..b]`, the inclusive slice, empty when `b < a` (00_scope.md, section 5). -/
def slice (s : List Byte) (a b : Nat) : List Byte := (s.take (b + 1)).drop a

/-- The position, counted from `i`, of the first `v` in a sequence. -/
def indexFrom (v : Byte) : Nat → List Byte → Option Nat
  | _, [] => none
  | i, b :: bs => if b = v then some i else indexFrom v (i + 1) bs

/-- `find(s, v, from)`, the least index `i >= from` with `s[i] = v`, or none (00_scope.md, section 5; R25). -/
def find (s : List Byte) (v : Byte) (start : Nat) : Option Nat := indexFrom v start (s.drop start)

/-- `v[15:8]`, the byte sent first (R21). -/
def hiByte (v : Half) : Byte := v.extractLsb' 8 8

/-- `v[7:0]`, the byte sent second (R21). -/
def loByte (v : Half) : Byte := v.extractLsb' 0 8

/-- Two bytes as a big-endian field, `hi*256 + lo` (R21). -/
def ofBytes (hi lo : Byte) : Half := hi ++ lo

/-- `be16(s, i) = s[i]*256 + s[i+1]` (R21). -/
def be16 (s : List Byte) (i : Nat) : Half := ofBytes (byteAt s i) (byteAt s (i + 1))

/-- `zext_16(b)` (00_scope.md, section 5). -/
def zext16 (b : Byte) : Half := b.setWidth 16

end Sys2Proof.Machine
end

