-- ==== Sys2Proof/Machine/Crc16.lean ====
section
/-! DEFINITION. The CRC-16 (40_crc16.md, R51 to R54). -/

namespace Sys2Proof.Machine

/-- One of the eight shifts of `CrcByte` (R53). -/
def crcShift (c : Half) : Half :=
  if c.getLsbD 15 then (c <<< 1) ^^^ Config.crcPoly else c <<< 1

/-- `CrcByte(c, b)`: the byte goes into the high half, then eight shifts (R53). -/
def crcByte (c : Half) (b : Byte) : Half := crcShift^[8] (c ^^^ (zext16 b <<< 8))

/-- `CRC16(s)` (R51, R52, R54). -/
def crc16 (s : List Byte) : Half := s.foldl crcByte Config.crcInit ^^^ Config.crcXorOut

end Sys2Proof.Machine
end

