-- ==== Sys2Proof/Syntax.lean ====
section
/-! DEFINITION. The syntax of the block's two input languages: host operations and wire frames (R46, R36), one constructor
of `Instr` per mnemonic of spec/opcode_table.json, and the records they carry. -/

namespace Sys2Proof

/-- A decoded message (R57). `type` and `qos` are raw bytes, so values S3P does not name survive (R40, R41). -/
structure Message where
  /-- TYPE, any value (R39, R40). -/
  type : Byte
  /-- MSG_ID, any value, 0 included (R42). -/
  id : Half
  /-- QOS, any value (R41). -/
  qos : Byte
  /-- TOPIC, 0 to 255 opaque bytes without a terminator (R43). -/
  topic : List Byte
  /-- PAYLOAD, 0 to 65535 opaque bytes (R43). -/
  payload : List Byte
deriving DecidableEq, Repr

/-- The kinds of frame error (R58, R98). -/
inductive FrameErrorKind where
  /-- The first byte is not START (R59); never met inside the block (R69). -/
  | badStart
  /-- The candidate is shorter than 11 bytes (R60). -/
  | tooShort
  /-- A length field describes a frame longer than the candidate (R61, R62). -/
  | lenOverrun
  /-- The computed CRC16 differs from the CRC16 field (R63). -/
  | crcMismatch
  /-- The byte at the computed END offset is not END, or bytes follow it (R64). -/
  | badEnd
deriving DecidableEq, Repr

/-- The result of validating one candidate frame, `OK(msg)` or `ERR(kind)` (R58). -/
inductive Verdict where
  | ok (msg : Message)
  | err (kind : FrameErrorKind)
deriving DecidableEq, Repr

/-- The two formats of spec/opcode_table.json (R46 host operations, R36 wire frames). -/
inductive Format where
  | hostOp
  | frameType
deriving DecidableEq, Repr

/-- The instructions: one constructor per mnemonic of spec/opcode_table.json. -/
inductive Instr where
  /-- NOP (R74). -/
  | nop
  /-- FEED of a chunk (R73). -/
  | feed (chunk : List Byte)
  /-- RESET (R114). -/
  | reset
  /-- A reserved op byte, 0x03 to 0xFF (R46, R47). -/
  | reservedHostOp (op : Byte)
  /-- A wire frame with TYPE 0x01 (R36, R39). -/
  | framePublish (id : Half) (qos : Byte) (topic payload : List Byte)
  /-- A wire frame with TYPE 0x02. -/
  | frameSubscribe (id : Half) (qos : Byte) (topic payload : List Byte)
  /-- A wire frame with TYPE 0x03. -/
  | frameAck (id : Half) (qos : Byte) (topic payload : List Byte)
  /-- A wire frame with TYPE 0x04. -/
  | framePing (id : Half) (qos : Byte) (topic payload : List Byte)
  /-- A wire frame with TYPE 0x05. -/
  | framePong (id : Half) (qos : Byte) (topic payload : List Byte)
  /-- A wire frame with a TYPE that S3P does not name, 0x00 or 0x06 to 0xFF (R40). -/
  | frameUnnamedType (type : Byte) (id : Half) (qos : Byte) (topic payload : List Byte)
deriving DecidableEq, Repr

/-- The format of an instruction's row in the opcode table. -/
def Instr.format : Instr → Format
  | .nop => .hostOp
  | .feed _ => .hostOp
  | .reset => .hostOp
  | .reservedHostOp _ => .hostOp
  | .framePublish _ _ _ _ => .frameType
  | .frameSubscribe _ _ _ _ => .frameType
  | .frameAck _ _ _ _ => .frameType
  | .framePing _ _ _ _ => .frameType
  | .framePong _ _ _ _ => .frameType
  | .frameUnnamedType _ _ _ _ _ => .frameType

end Sys2Proof
end

