-- ==== Sys2Proof/WellFormed.lean ====
section
/-! DEFINITION. Which messages and instructions the encodings of the spec can express. -/

namespace Sys2Proof

/-- The field widths hold the message: the domain of `Encode` (R57, R70). -/
abbrev Message.Wf (m : Message) : Prop :=
  m.topic.length ≤ Config.maxTopic ∧ m.payload.length ≤ Config.maxPayload

/-- A TYPE value that S3P does not name: 0x00 or 0x06 to 0xFF (R40). -/
abbrev UnnamedType (t : Byte) : Prop := t.toNat = 0 ∨ 6 ≤ t.toNat

/-- The instruction has an encoding: LEN can count FEED's chunk and a reserved op byte is 0x03 to 0xFF (R46); a frame's
fields fit and an unnamed TYPE is none of the five named ones (R36, R40). Whether MAX_FEED allows a chunk is not a matter
of its encoding: its meaning decides that (R47). -/
abbrev Instr.Wf : Instr → Prop
  | .nop => True
  | .feed chunk => chunk.length ≤ Config.maxLen
  | .reset => True
  | .reservedHostOp op => 3 ≤ op.toNat
  | .framePublish id qos topic payload => Message.Wf ⟨Config.typePublish, id, qos, topic, payload⟩
  | .frameSubscribe id qos topic payload => Message.Wf ⟨Config.typeSubscribe, id, qos, topic, payload⟩
  | .frameAck id qos topic payload => Message.Wf ⟨Config.typeAck, id, qos, topic, payload⟩
  | .framePing id qos topic payload => Message.Wf ⟨Config.typePing, id, qos, topic, payload⟩
  | .framePong id qos topic payload => Message.Wf ⟨Config.typePong, id, qos, topic, payload⟩
  | .frameUnnamedType type id qos topic payload =>
      UnnamedType type ∧ Message.Wf ⟨type, id, qos, topic, payload⟩

/-- `Instr.Wf` as a check that can be run. -/
def Instr.wf : Instr → Bool
  | .nop => true
  | .feed chunk => decide (Instr.Wf (.feed chunk))
  | .reset => true
  | .reservedHostOp op => decide (Instr.Wf (.reservedHostOp op))
  | .framePublish id qos topic payload => decide (Instr.Wf (.framePublish id qos topic payload))
  | .frameSubscribe id qos topic payload => decide (Instr.Wf (.frameSubscribe id qos topic payload))
  | .frameAck id qos topic payload => decide (Instr.Wf (.frameAck id qos topic payload))
  | .framePing id qos topic payload => decide (Instr.Wf (.framePing id qos topic payload))
  | .framePong id qos topic payload => decide (Instr.Wf (.framePong id qos topic payload))
  | .frameUnnamedType type id qos topic payload =>
      decide (Instr.Wf (.frameUnnamedType type id qos topic payload))

end Sys2Proof
end

