-- ==== Sys2Proof/Machine/Frame.lean ====
section
/-! DEFINITION. The frame validator `Validate` (R58 to R68) and the reference encoder `Encode` (R70). -/

namespace Sys2Proof.Machine

/-- The fields of a frame whose checks have all passed, copied unchanged (R65). -/
def extract (s : List Byte) (tl pl : Nat) : Message :=
  { type := byteAt s 1
    id := be16 s 2
    qos := byteAt s 4
    topic := slice s 6 (5 + tl)
    payload := slice s (8 + tl) (7 + tl + pl) }

/-- `Validate(s)` (R58): the checks in the order of R66, the first failing one deciding the kind. The lengths are natural
numbers, so `11 + tl + pl` is exact (R68). -/
def validate (s : List Byte) : Verdict :=
  let n := s.length
  if 1 ≤ n ∧ byteAt s 0 ≠ Config.startByte then .err .badStart
  else if n < Config.minFrame then .err .tooShort
  else
    let tl := (byteAt s 5).toNat
    if n < 11 + tl then .err .lenOverrun
    else
      let pl := (be16 s (6 + tl)).toNat
      let ne := 11 + tl + pl
      if n < ne then .err .lenOverrun
      else if crc16 (slice s 1 (ne - 4)) ≠ be16 s (ne - 3) then .err .crcMismatch
      else if byteAt s (ne - 1) ≠ Config.endByte ∨ ne ≠ n then .err .badEnd
      else .ok (extract s tl pl)

/-- The span TYPE..PAYLOAD of a message's frame, over which the CRC runs (R44, R70). -/
def frameBody (m : Message) : List Byte :=
  [m.type, hiByte m.id, loByte m.id, m.qos, BitVec.ofNat 8 m.topic.length] ++ m.topic
    ++ [hiByte (BitVec.ofNat 16 m.payload.length), loByte (BitVec.ofNat 16 m.payload.length)] ++ m.payload

/-- `Encode(m)` (R70). Its domain is `Message.Wf`; whoever uses it on an operand checks that first (log 8). -/
def encodeMessage (m : Message) : List Byte :=
  [Config.startByte] ++ frameBody m ++ [hiByte (crc16 (frameBody m)), loByte (crc16 (frameBody m))]
    ++ [Config.endByte]

end Sys2Proof.Machine
end

