-- ==== Sys2Proof/Decode.lean ====
section
/-! DEFINITION. The decoders of the block's two input languages, total on any bytes, and the encoder written from the same
tables: the host operation encoding (R46, R47) and the wire frame (R36, R58, R70). -/

namespace Sys2Proof

open Sys2Proof.Machine

/-- Why bytes decode to no instruction. -/
inductive DecodeError where
  /-- There is no op byte: nothing has been issued. -/
  | noOperation
  /-- A FEED's encoding ends before its LEN data bytes (R47). -/
  | truncatedFeed
  /-- The bytes are no valid frame, for the reason `Validate` gives (R58). -/
  | badFrame (kind : FrameErrorKind)
deriving DecidableEq, Repr

/-- The result of decoding: an instruction with the bytes after it, or a rejection by name. -/
inductive Decoded where
  | instr (i : Instr) (rest : List Byte)
  | reject (why : DecodeError)
deriving DecidableEq, Repr

/-- FEED's operands: LEN as two bytes, big-endian, then LEN data bytes (R46). -/
def decodeFeed : List Byte → Decoded
  | hi :: lo :: data =>
      let len := (ofBytes hi lo).toNat
      if data.length < len then .reject .truncatedFeed else .instr (.feed (data.take len)) (data.drop len)
  | _ => .reject .truncatedFeed

/-- The host operation at the head of a byte sequence (R46). A reserved op byte is an instruction of its own, whose meaning
is to be refused (R47); no length is defined for it, so it takes its op byte alone (log 6). -/
def decodeHostOp : List Byte → Decoded
  | [] => .reject .noOperation
  | op :: rest =>
      if op = 0x00#8 then .instr .nop rest
      else if op = 0x01#8 then decodeFeed rest
      else if op = 0x02#8 then .instr .reset rest
      else .instr (.reservedHostOp op) rest

/-- The instruction a message stands for, by its TYPE (R39, R40). -/
def Instr.ofMessage (m : Message) : Instr :=
  if m.type = Config.typePublish then .framePublish m.id m.qos m.topic m.payload
  else if m.type = Config.typeSubscribe then .frameSubscribe m.id m.qos m.topic m.payload
  else if m.type = Config.typeAck then .frameAck m.id m.qos m.topic m.payload
  else if m.type = Config.typePing then .framePing m.id m.qos m.topic m.payload
  else if m.type = Config.typePong then .framePong m.id m.qos m.topic m.payload
  else .frameUnnamedType m.type m.id m.qos m.topic m.payload

/-- The message a frame instruction carries (R57). -/
def Instr.message? : Instr → Option Message
  | .nop => none
  | .feed _ => none
  | .reset => none
  | .reservedHostOp _ => none
  | .framePublish id qos topic payload => some ⟨Config.typePublish, id, qos, topic, payload⟩
  | .frameSubscribe id qos topic payload => some ⟨Config.typeSubscribe, id, qos, topic, payload⟩
  | .frameAck id qos topic payload => some ⟨Config.typeAck, id, qos, topic, payload⟩
  | .framePing id qos topic payload => some ⟨Config.typePing, id, qos, topic, payload⟩
  | .framePong id qos topic payload => some ⟨Config.typePong, id, qos, topic, payload⟩
  | .frameUnnamedType type id qos topic payload => some ⟨type, id, qos, topic, payload⟩

/-- The frame that a whole byte sequence is (R58, R65). -/
def decodeFrame (s : List Byte) : Decoded :=
  match validate s with
  | .ok m => .instr (Instr.ofMessage m) []
  | .err k => .reject (.badFrame k)

/-- Decoding in either of the opcode table's two formats. -/
def decode : Format → List Byte → Decoded
  | .hostOp, s => decodeHostOp s
  | .frameType, s => decodeFrame s

/-- The bytes of an instruction: R46 for a host operation, R70 for a frame. -/
def encode : Instr → List Byte
  | .nop => [0x00#8]
  | .feed chunk =>
      [0x01#8, hiByte (BitVec.ofNat 16 chunk.length), loByte (BitVec.ofNat 16 chunk.length)] ++ chunk
  | .reset => [0x02#8]
  | .reservedHostOp op => [op]
  | .framePublish id qos topic payload => encodeMessage ⟨Config.typePublish, id, qos, topic, payload⟩
  | .frameSubscribe id qos topic payload => encodeMessage ⟨Config.typeSubscribe, id, qos, topic, payload⟩
  | .frameAck id qos topic payload => encodeMessage ⟨Config.typeAck, id, qos, topic, payload⟩
  | .framePing id qos topic payload => encodeMessage ⟨Config.typePing, id, qos, topic, payload⟩
  | .framePong id qos topic payload => encodeMessage ⟨Config.typePong, id, qos, topic, payload⟩
  | .frameUnnamedType type id qos topic payload => encodeMessage ⟨type, id, qos, topic, payload⟩

/-- The lowest `k` bytes of a number, the lowest first: the opcode table's numbering of an instruction's bits. -/
def lowBytes : Nat → Nat → List Byte
  | 0, _ => []
  | k + 1, w => BitVec.ofNat 8 w :: lowBytes k (w / 256)

/-- How long the host operation is whose first bytes these are: 3 + LEN for FEED, else 1 (R46). -/
def hostOpSize (s : List Byte) : Nat := if byteAt s 0 = 0x01#8 then 3 + (be16 s 1).toNat else 1

/-- The bytes of a host operation whose bits are `w`, as the opcode table numbers them, with every byte the operation has
above `nbits` zero. -/
def tableBytes (nbits w : Nat) : List Byte :=
  let given := lowBytes ((nbits + 7) / 8) w
  given ++ List.replicate (hostOpSize given - given.length) 0#8

/-- What the decoder of the host operation port reads from a word of the opcode table. The table's two formats give each
byte value twice, once as an op byte and once as a frame's TYPE byte; a word alone stands for the op byte (log 7). -/
def decodeTableWord (nbits w : Nat) : Option Instr :=
  match decodeHostOp (tableBytes nbits w) with
  | .instr i _ => some i
  | .reject _ => none

end Sys2Proof
end

