-- ==== Sys2Proof/Machine/State.lean ====
section
/-! DEFINITION. The machine's state as plain data (10_state.md), its events (R48), the reasons a step can stop, and the
state after reset (R113). -/

namespace Sys2Proof.Machine

/-- An event on the output port (R48). -/
inductive Event where
  /-- A valid frame's message (R65, R83). -/
  | frameOk (msg : Message)
  /-- A frame error of the given kind (R83, R98). -/
  | frameErr (kind : FrameErrorKind)
  /-- The buffer grew past the threshold without an END and was discarded (R81, R99). -/
  | overflow
deriving DecidableEq, Repr

/-- The block's whole state, with the parameter MAX_FEED and the operations the host has still to issue. The spec gives the
block no register, program counter, flag, mode, memory or trap state (R17 to R20, R28, R102 to R106). -/
structure State where
  /-- BUF, the reassembly buffer: bytes fed and not yet consumed (R11). -/
  buf : List Byte
  /-- OUT, every event emitted so far, oldest first (R15). -/
  out : List Event
  /-- REFUSED, set and never cleared when the host presents an operation that has no meaning (R16). -/
  refused : Bool
  /-- MAX_FEED, the largest number of bytes one FEED may carry (R10). No step changes it (R20, log 1). -/
  maxFeed : Nat
  /-- The model's own field: the encodings of the operations the host has still to issue on the host operation port (R14,
  R46, log 2). -/
  hostPort : List Byte
deriving DecidableEq, Repr

/-- The block halts on nothing: "No condition in the block raises a trap, halts the block, or changes how later operations
are decoded" (R97, R102). So there is no fault, and no step answers one (safe; log 15). -/
inductive Fault where
deriving DecidableEq, Repr

/-- Why a step gives an instruction no meaning. -/
inductive Refusal where
  /-- An instruction of the opcode table that the model gives no meaning; `exec` would raise it. No arm does: every
  instruction has its meaning. Safe. -/
  | notModelled (mnemonic : String)
  /-- The run already holds a refused operation, and such a run "has no meaning beyond the refused operation" (R92).
  `performNext` raises it. Safe: nothing can be proved of what follows. -/
  | afterRefusedOperation
deriving DecidableEq, Repr

/-- The state at the start of a run: BUF and OUT empty, REFUSED false (R113, R92), for a given MAX_FEED and the given host
program, not one operation of which has been issued. -/
def State.powerOn (maxFeed : Nat) (program : List Byte) : State :=
  { buf := [], out := [], refused := false, maxFeed := maxFeed, hostPort := program }

/-- The machine right after power-on reset (R113): MAX_FEED is the open constant of Config (log 1) and the host has issued
nothing yet (log 2). -/
def State.reset : State := State.powerOn Config.maxFeed []

end Sys2Proof.Machine
end

