-- ==== Sys2Proof/Machine/Events.lean ====
section
/-! DEFINITION. The encoding of the output port's events (R48) and S3P's two classes of error (R98, R99). The block has no
status flags: every outcome it reports is an event (R19), so this file stands where a processor's flag computations would. -/

namespace Sys2Proof.Machine

/-- The event code of a frame error (R48). -/
def frameErrorCode : FrameErrorKind → Byte
  | .badStart => 0x01#8
  | .tooShort => 0x02#8
  | .lenOverrun => 0x03#8
  | .crcMismatch => 0x04#8
  | .badEnd => 0x05#8

/-- The 8-bit code that is the first item of an event's record (R48). -/
def Event.code : Event → Byte
  | .frameOk _ => 0x00#8
  | .frameErr k => frameErrorCode k
  | .overflow => 0x06#8

/-- The data an event carries after its code: only FRAME_OK carries any (R48, R98, R99). -/
def Event.message? : Event → Option Message
  | .frameOk m => some m
  | .frameErr _ => none
  | .overflow => none

/-- S3P's classes of error (R98, R99). -/
inductive ErrorClass where
  | frameError
  | overflowError
deriving DecidableEq, Repr

/-- The class of error an event reports, if it reports one: codes 0x01 to 0x05 are one FrameError (R48). -/
def Event.errorClass? : Event → Option ErrorClass
  | .frameOk _ => none
  | .frameErr _ => some .frameError
  | .overflow => some .overflowError

/-- The event for a candidate's verdict (R83). -/
def Event.ofVerdict : Verdict → Event
  | .ok m => .frameOk m
  | .err k => .frameErr k

end Sys2Proof.Machine
end

