-- ==== Sys2Proof/Machine/Ops.lean ====
section
/-! DEFINITION. The named operations on State and on BUF. The block takes no exception and returns from none (R102, R103): its
whole response to an error is `emit` of an error event (R97). -/

namespace Sys2Proof.Machine

/-- `Append(c)` on BUF (R25, R75). -/
def append (buf chunk : List Byte) : List Byte := buf ++ chunk

/-- `DropFront(k)` on BUF (R25). -/
def dropFront (buf : List Byte) (k : Nat) : List Byte := buf.drop k

/-- `Clear()` on BUF (R25). -/
def clear : List Byte := []

/-- `BUF <- v`. -/
def State.setBuf (s : State) (buf : List Byte) : State := { s with buf := buf }

/-- `emit(e)` for each of a list of events, in order: they are appended to OUT (R15, R26). -/
def State.emit (s : State) (events : List Event) : State := { s with out := s.out ++ events }

/-- `refuse`: the mark REFUSED is set, and nothing else changes (R16, R47). -/
def State.refuse (s : State) : State := { s with refused := true }

/-- The operations the host has still to issue. -/
def State.setPort (s : State) (port : List Byte) : State := { s with hostPort := port }

/-- The host issues an operation next, before those already waiting. -/
def State.presentFirst (s : State) (bytes : List Byte) : State := s.setPort (bytes ++ s.hostPort)

/-- What a run is observed by: OUT, BUF and REFUSED (R92). -/
def State.observe (s : State) : List Event × List Byte × Bool := (s.out, s.buf, s.refused)

end Sys2Proof.Machine
end

