-- ==== Sys2Proof/Machine/Operands.lean ====
section
/-! DEFINITION. The operand forms: FEED's chunk against MAX_FEED (R10, R47) and a frame's message as the chunk FEEDFRAME
feeds (R50, R70). -/

namespace Sys2Proof.Machine

/-- A chunk longer than MAX_FEED is refused (R47). -/
def chunkTooLong (s : State) (chunk : List Byte) : Bool := decide (s.maxFeed < chunk.length)

/-- The chunk that carries a message's frame; none outside the domain of `Encode` (R70, I9 of 93, log 8). -/
def frameChunk? (m : Message) : Option (List Byte) := if m.Wf then some (encodeMessage m) else none

end Sys2Proof.Machine
end

