-- ==== Sys2Proof/Machine/Reassembler.lean ====
section
/-! DEFINITION. The reassembly loop of FEED (R73, R75 to R84). It acts on BUF alone and answers the new BUF with the events
emitted, in order (R27). -/

namespace Sys2Proof.Machine

/-- How one pass of the loop ends (R76). -/
inductive Pass where
  /-- The loop exits with this BUF, having emitted these events (R77, R79, R81, R82). -/
  | exit (buf : List Byte) (events : List Event)
  /-- A candidate was cut: one event, and the loop goes on with this BUF (R83, R84). -/
  | again (buf : List Byte) (event : Event)
deriving DecidableEq, Repr

/-- Steps 4 to 6 on a BUF that begins with START and holds at least MIN_FRAME bytes (R80 to R84). -/
def cutCandidate (buf : List Byte) : Pass :=
  match find buf Config.endByte 1 with
  | none => if Config.ovfThreshold < buf.length then .exit clear [.overflow] else .exit buf []
  | some e => .again (dropFront buf (e + 1)) (Event.ofVerdict (validate (slice buf 0 e)))

/-- One pass of the loop, steps 1 to 6 (R77 to R84). -/
def loopPass (buf : List Byte) : Pass :=
  match find buf Config.startByte 0 with
  | none => .exit clear []
  | some p =>
      let buf := dropFront buf p
      if buf.length < Config.minFrame then .exit buf [] else cutCandidate buf

/-- The loop for at most `fuel` passes (R76). Each pass that does not exit removes at least 2 bytes (R84). -/
def loop : Nat → List Byte → List Byte × List Event
  | 0, buf => (buf, [])
  | fuel + 1, buf =>
      match loopPass buf with
      | .exit buf' events => (buf', events)
      | .again buf' event => ((loop fuel buf').1, event :: (loop fuel buf').2)

/-- The loop on BUF as FEED runs it: `floor(L / 2) + 1` passes are enough (R85, log 16). -/
def reassemble (buf : List Byte) : List Byte × List Event := loop (buf.length / 2 + 1) buf

end Sys2Proof.Machine
end

