-- ==== Sys2Proof/Machine/HostOps.lean ====
section
/-! DEFINITION. The meanings of the host operations NOP, FEED, RESET and the reserved op bytes (R74, R73, R114, R47). -/

namespace Sys2Proof.Machine

/-- FEED, shared by every instruction that feeds a chunk: refused when longer than MAX_FEED (R47), else append and
reassemble (R73, R75). -/
def feedChunk (chunk : List Byte) (s : State) : State :=
  if chunkTooLong s chunk then s.refuse
  else
    let r := reassemble (append s.buf chunk)
    (s.setBuf r.1).emit r.2

/-- NOP (R74). -/
def execNop (s : State) : Host.Outcome State Fault Refusal := .next s

/-- FEED (R73). -/
def execFeed (chunk : List Byte) (s : State) : Host.Outcome State Fault Refusal := .next (feedChunk chunk s)

/-- RESET (R114): BUF is emptied; OUT and REFUSED stay, and no event is emitted. -/
def execReset (s : State) : Host.Outcome State Fault Refusal := .next (s.setBuf clear)

/-- A reserved op byte (R47): whatever it is, REFUSED is set and BUF and OUT stay. -/
def execReservedHostOp (_op : Byte) (s : State) : Host.Outcome State Fault Refusal := .next s.refuse

end Sys2Proof.Machine
end

