-- ==== Sys2Proof/Machine/Frames.lean ====
section
/-! DEFINITION. The meanings of the wire frames. A frame reaches the block only as fed bytes, so its meaning is the FEED of its
encoding, the expansion of FEEDFRAME (R50, log 8). The block treats every TYPE alike (R39, R40). -/

namespace Sys2Proof.Machine

/-- The frame of a message is fed (R50). Outside the domain of `Encode` it is refused (R50, I9 of 93). -/
def feedFrame (m : Message) (s : State) : State :=
  match frameChunk? m with
  | some chunk => feedChunk chunk s
  | none => s.refuse

/-- A Publish frame (R39, R65). -/
def execFramePublish (id : Half) (qos : Byte) (topic payload : List Byte) (s : State) :
    Host.Outcome State Fault Refusal :=
  .next (feedFrame ⟨Config.typePublish, id, qos, topic, payload⟩ s)

/-- A Subscribe frame (R39, R65). -/
def execFrameSubscribe (id : Half) (qos : Byte) (topic payload : List Byte) (s : State) :
    Host.Outcome State Fault Refusal :=
  .next (feedFrame ⟨Config.typeSubscribe, id, qos, topic, payload⟩ s)

/-- An Ack frame (R39, R65). -/
def execFrameAck (id : Half) (qos : Byte) (topic payload : List Byte) (s : State) :
    Host.Outcome State Fault Refusal :=
  .next (feedFrame ⟨Config.typeAck, id, qos, topic, payload⟩ s)

/-- A Ping frame (R39, R65). -/
def execFramePing (id : Half) (qos : Byte) (topic payload : List Byte) (s : State) :
    Host.Outcome State Fault Refusal :=
  .next (feedFrame ⟨Config.typePing, id, qos, topic, payload⟩ s)

/-- A Pong frame (R39, R65). -/
def execFramePong (id : Half) (qos : Byte) (topic payload : List Byte) (s : State) :
    Host.Outcome State Fault Refusal :=
  .next (feedFrame ⟨Config.typePong, id, qos, topic, payload⟩ s)

/-- A frame whose TYPE S3P does not name (R40): it is fed with the raw TYPE. -/
def execFrameUnnamedType (type : Byte) (id : Half) (qos : Byte) (topic payload : List Byte) (s : State) :
    Host.Outcome State Fault Refusal :=
  .next (feedFrame ⟨type, id, qos, topic, payload⟩ s)

end Sys2Proof.Machine
end

