-- ==== Sys2Proof/Machine/Dispatch.lean ====
section
/-! DEFINITION. One arm per instruction, each one direct call of its meaning. -/

namespace Sys2Proof.Machine

/-- The meaning of an instruction. -/
def exec (i : Instr) (s : State) : Host.Outcome State Fault Refusal :=
  match i with
  | .nop => Sys2Proof.Machine.execNop s
  | .feed chunk => Sys2Proof.Machine.execFeed chunk s
  | .reset => Sys2Proof.Machine.execReset s
  | .reservedHostOp op => Sys2Proof.Machine.execReservedHostOp op s
  | .framePublish id qos topic payload => Sys2Proof.Machine.execFramePublish id qos topic payload s
  | .frameSubscribe id qos topic payload => Sys2Proof.Machine.execFrameSubscribe id qos topic payload s
  | .frameAck id qos topic payload => Sys2Proof.Machine.execFrameAck id qos topic payload s
  | .framePing id qos topic payload => Sys2Proof.Machine.execFramePing id qos topic payload s
  | .framePong id qos topic payload => Sys2Proof.Machine.execFramePong id qos topic payload s
  | .frameUnnamedType type id qos topic payload => Sys2Proof.Machine.execFrameUnnamedType type id qos topic payload s

end Sys2Proof.Machine
end

