-- ==== Sys2Proof/Machine/HostPort.lean ====
section
/-! DEFINITION. The host operation port: the block performs the operations the host issues, in order, each completely before
the next (R26, R30, R46). -/

namespace Sys2Proof.Machine

/-- The block performs the next operation of the host program (R46). With nothing issued it is idle and keeps its state
(R111, R112, log 3). Any other bytes that are no operation, which are a FEED whose encoding ends before its data, are
refused, and with them all that was left on the port (R47, log 6). A run that holds a refused operation has
no meaning beyond it (R92, log 4). -/
def performNext (s : State) : Host.Outcome State Fault Refusal :=
  if s.refused then .refused .afterRefusedOperation
  else
    match decodeHostOp s.hostPort with
    | .instr i rest => exec i (s.setPort rest)
    | .reject .noOperation => .next s
    | .reject _ => .next (s.setPort []).refuse

end Sys2Proof.Machine
end

