-- ==== Sys2Proof/Machine/Step.lean ====
section
/-! DEFINITION. One step of the machine, and the placing of an instruction where the step takes its next one from. -/

namespace Sys2Proof.Machine

/-- One step: the next host operation (R26, R30). -/
def step (s : State) : Host.Outcome State Fault Refusal := performNext s

/-- The state in which the host issues the given opcode-table word next (log 2). -/
def State.withFetchWord (s : State) (nbits w : Nat) : State := s.presentFirst (tableBytes nbits w)

end Sys2Proof.Machine
end

