-- ==== Sys2Proof/Machine/Assembler.lean ====
section
/-! DEFINITION. The assembler of host programs (R49, R50): lines of text, pseudo-operations, and the bytes of R46. -/

namespace Sys2Proof.Machine

/-- One line of a host program (R49, R50). -/
inductive AsmOp where
  | nop
  | reset
  | feed (bytes : List Byte)
  /-- `FEEDFRAME t, id, q, "topic", [p0, ..., pk]` (R50). -/
  | feedFrame (m : Message)
  /-- `FEEDFILL v, n` (R50). -/
  | feedFill (v : Byte) (n : Nat)
  /-- `FEEDBYTES b0 b1 ... bk` (R50). -/
  | feedBytes (bytes : List Byte)
deriving DecidableEq, Repr

/-- A FEED of a chunk, refused when the chunk is longer than MAX_FEED (R49). -/
def asmFeed (maxFeed : Nat) (chunk : List Byte) : Option (List Instr) :=
  if maxFeed < chunk.length then none else some [.feed chunk]

/-- The operations a line stands for, or none where the assembler refuses it (R49, R50). FEEDBYTES without an operand, which
R50's form does not have, stands for no operation (DESIGN CHOICE, log 14). -/
def AsmOp.expand (maxFeed : Nat) : AsmOp → Option (List Instr)
  | .nop => some [.nop]
  | .reset => some [.reset]
  | .feed bytes => asmFeed maxFeed bytes
  | .feedFrame m => if m.Wf then asmFeed maxFeed (encodeMessage m) else none
  | .feedFill v n => asmFeed maxFeed (List.replicate n v)
  | .feedBytes bytes => some (bytes.map fun b => .feed [b])

/-- The operations of a whole program, or none where one line is refused. -/
def expandProgram (maxFeed : Nat) : List AsmOp → Option (List Instr)
  | [] => some []
  | op :: ops =>
      match op.expand maxFeed, expandProgram maxFeed ops with
      | some is, some rest => some (is ++ rest)
      | _, _ => none

/-- The bytes of a list of operations: the concatenation of their encodings (R46). -/
def encodeProgram (is : List Instr) : List Byte := is.flatMap encode

/-- A host program as bytes (R46, R49). -/
def assemble (maxFeed : Nat) (ops : List AsmOp) : Option (List Byte) :=
  (expandProgram maxFeed ops).map encodeProgram

/-- The value of a hexadecimal digit (R49; lower case letters are taken too, log 14). -/
def hexDigit? (c : Char) : Option Nat :=
  let n := c.toNat
  if 48 ≤ n ∧ n ≤ 57 then some (n - 48)
  else if 65 ≤ n ∧ n ≤ 70 then some (n - 55)
  else if 97 ≤ n ∧ n ≤ 102 then some (n - 87)
  else none

/-- A byte written as two hexadecimal digits (R49). -/
def hexByte? : List Char → Option Byte
  | [a, b] =>
      match hexDigit? a, hexDigit? b with
      | some x, some y => some (BitVec.ofNat 8 (16 * x + y))
      | _, _ => none
  | _ => none

/-- The operands of FEED and FEEDBYTES: every word a byte, or the line is refused. -/
def hexBytes? : List (List Char) → Option (List Byte)
  | [] => some []
  | w :: ws =>
      match hexByte? w, hexBytes? ws with
      | some b, some bs => some (b :: bs)
      | _, _ => none

/-- The text before a comment (R49). -/
def stripComment (line : List Char) : List Char := line.takeWhile (· ≠ ';')

/-- Put a finished word, if there is one, before the others. -/
def flushWord : List Char × List (List Char) → List (List Char)
  | ([], ws) => ws
  | (w, ws) => w :: ws

/-- The words of a line, separated by spaces (R49). -/
def wordsOf (line : List Char) : List (List Char) :=
  flushWord (line.foldr (fun c acc => if c = ' ' then ([], flushWord acc) else (c :: acc.1, acc.2)) ([], []))

/-- One line of text: no operation (a blank line or a comment), one operation, or none where it is refused. The operand
text of FEEDFRAME and FEEDFILL has no numeral form in the spec, so those two are entered as `AsmOp` (log 14). -/
def parseLine (line : List Char) : Option (List AsmOp) :=
  match wordsOf (stripComment line) with
  | [] => some []
  | name :: args =>
      if name = ['N', 'O', 'P'] then (if args = [] then some [.nop] else none)
      else if name = ['R', 'E', 'S', 'E', 'T'] then (if args = [] then some [.reset] else none)
      else if name = ['F', 'E', 'E', 'D'] then (hexBytes? args).map fun bs => [.feed bs]
      else if name = ['F', 'E', 'E', 'D', 'B', 'Y', 'T', 'E', 'S'] then (hexBytes? args).map fun bs => [.feedBytes bs]
      else none

/-- A program of text, one operation per line (R49). -/
def parseProgram : List (List Char) → Option (List AsmOp)
  | [] => some []
  | line :: lines =>
      match parseLine line, parseProgram lines with
      | some ops, some rest => some (ops ++ rest)
      | _, _ => none

end Sys2Proof.Machine
end

