-- ==== Sys2Proof/Safety.lean ====
section
/-! DEFINITION. The terms claims are stated in: quiescent buffers (R86), deliverable messages and sound events (R69), the
declarative form of the reassembly rules (R75 to R84), runs of operations (R92), and the invariants. -/

namespace Sys2Proof.Safety

open Sys2Proof.Machine

/-- The three quiescent forms Q1, Q2, Q3 of BUF (R86). -/
abbrev Quiescent (buf : List Byte) : Prop :=
  buf = [] ∨
  (buf.head? = some Config.startByte ∧ buf.length < Config.minFrame) ∨
  (buf.head? = some Config.startByte ∧ Config.minFrame ≤ buf.length ∧ buf.length ≤ Config.ovfThreshold ∧
    Config.endByte ∉ buf.tail)

/-- MAX_FEED is one of the values the parameter may take (R10). -/
abbrev FeedBound (maxFeed : Nat) : Prop := 1 ≤ maxFeed ∧ maxFeed ≤ Config.maxLen

/-- What holds of State between host operations (R86, R87, R10). -/
abbrev StateInv (s : State) : Prop := Quiescent s.buf ∧ FeedBound s.maxFeed

/-- The bytes of a message's frame at offsets 1 to `n-2`: everything between its START and its END (R69, R116). -/
def innerBytes (m : Message) : List Byte := (encodeMessage m).tail.dropLast

/-- The frame holds no END byte before its own (R116). -/
abbrev CleanInside (m : Message) : Prop := Config.endByte ∉ innerBytes m

/-- What the block may put on its output port: a message only if its frame fits the format and holds no inner END, and
never BAD_START (R69, R98). -/
def EventSound : Event → Prop
  | .frameOk m => m.Wf ∧ CleanInside m
  | .frameErr k => k ≠ .badStart
  | .overflow => True

/-- Every event emitted so far is sound. -/
def OutSound (s : State) : Prop := ∀ e ∈ s.out, EventSound e

/-- The reassembly rules as a relation, with no search, loop or bound: `Reassembles buf events buf'` says that the loop run
on `buf` emits `events` and leaves `buf'` (R76 to R84). -/
inductive Reassembles : List Byte → List Event → List Byte → Prop where
  /-- R77: no START anywhere. -/
  | noStart {buf : List Byte} : Config.startByte ∉ buf → Reassembles buf [] []
  /-- R78, R79: fewer than 11 bytes from the first START on. -/
  | short {noise rest : List Byte} : Config.startByte ∉ noise →
      (Config.startByte :: rest).length < Config.minFrame →
      Reassembles (noise ++ Config.startByte :: rest) [] (Config.startByte :: rest)
  /-- R78, R80, R81: no END and more than 512 bytes from the first START on. -/
  | overflow {noise rest : List Byte} : Config.startByte ∉ noise → Config.endByte ∉ rest →
      Config.ovfThreshold < (Config.startByte :: rest).length →
      Reassembles (noise ++ Config.startByte :: rest) [.overflow] []
  /-- R78, R80, R82: no END and 11 to 512 bytes from the first START on. -/
  | hold {noise rest : List Byte} : Config.startByte ∉ noise → Config.endByte ∉ rest →
      Config.minFrame ≤ (Config.startByte :: rest).length →
      (Config.startByte :: rest).length ≤ Config.ovfThreshold →
      Reassembles (noise ++ Config.startByte :: rest) [] (Config.startByte :: rest)
  /-- R78, R80, R83, R84: a candidate is cut at the first END after the first START, and the loop goes on behind it. -/
  | cut {noise body tail : List Byte} {events : List Event} {buf' : List Byte} :
      Config.startByte ∉ noise → Config.endByte ∉ body →
      Config.minFrame ≤ (Config.startByte :: body ++ Config.endByte :: tail).length →
      Reassembles tail events buf' →
      Reassembles (noise ++ Config.startByte :: body ++ Config.endByte :: tail)
        (Event.ofVerdict (validate (Config.startByte :: body ++ [Config.endByte])) :: events) buf'

/-- A run: the operations performed in order (R30, R92). It answers a next state only if it is successful: REFUSED is never
true in its final state (R16), and a run that holds a refused operation goes no further (R92, log 4). -/
def performAll : List Instr → State → Host.Outcome State Fault Refusal
  | [], s => if s.refused then .refused .afterRefusedOperation else .next s
  | i :: is, s =>
      if s.refused then .refused .afterRefusedOperation else match exec i s with
      | .next t => performAll is t
      | .fault r => .fault r
      | .refused r => .refused r

/-- A run that feeds a byte stream chunk by chunk (R90). -/
def feedAll (chunks : List (List Byte)) (s : State) : Host.Outcome State Fault Refusal :=
  performAll (chunks.map .feed) s

/-- The host presents an operation that has no meaning (R16, R47, R50). What makes a frame instruction one is the model's
(log 8). -/
def RefusedHere (i : Instr) (s : State) : Prop :=
  match i with
  | .nop => False
  | .feed chunk => s.maxFeed < chunk.length
  | .reset => False
  | .reservedHostOp _ => True
  | .framePublish id qos topic payload =>
      ¬ (Instr.framePublish id qos topic payload).Wf ∨ s.maxFeed < 11 + topic.length + payload.length
  | .frameSubscribe id qos topic payload =>
      ¬ (Instr.frameSubscribe id qos topic payload).Wf ∨ s.maxFeed < 11 + topic.length + payload.length
  | .frameAck id qos topic payload =>
      ¬ (Instr.frameAck id qos topic payload).Wf ∨ s.maxFeed < 11 + topic.length + payload.length
  | .framePing id qos topic payload =>
      ¬ (Instr.framePing id qos topic payload).Wf ∨ s.maxFeed < 11 + topic.length + payload.length
  | .framePong id qos topic payload =>
      ¬ (Instr.framePong id qos topic payload).Wf ∨ s.maxFeed < 11 + topic.length + payload.length
  | .frameUnnamedType type id qos topic payload =>
      ¬ Message.Wf ⟨type, id, qos, topic, payload⟩ ∨ s.maxFeed < 11 + topic.length + payload.length

/-- A sequence with bit `k` of its byte `p` flipped (R56, R72). -/
def flipBit (s : List Byte) (p k : Nat) : List Byte := s.set p (byteAt s p ^^^ (1#8 <<< k))

/-- The expected length `ne = 11 + tl + pl` that a sequence's length fields give (R58, R68). -/
def expectedLength (s : List Byte) : Nat :=
  11 + (byteAt s 5).toNat + (be16 s (6 + (byteAt s 5).toNat)).toNat

/-- The CRC at the offsets the length fields compute matches (R63). -/
abbrev CrcMatches (s : List Byte) : Prop :=
  crc16 (slice s 1 (expectedLength s - 4)) = be16 s (expectedLength s - 3)

/-- The frame instruction `i` of message `m`, fed where no START is pending, is delivered: one FRAME_OK with the message's
fields, and nothing left in BUF. -/
def Delivered (m : Message) (i : Instr) (s : State) : Prop :=
  m.Wf → CleanInside m → 11 + m.topic.length + m.payload.length ≤ s.maxFeed → Config.startByte ∉ s.buf →
    exec i s = .next { s with buf := [], out := s.out ++ [.frameOk m] }

end Sys2Proof.Safety
end

