-- ==== Sys2Proof/Certificates/Slice0/Obligations.lean ====
section
/-! DEFINITION. What is claimed of the machine, for the provers. Each docstring names the rules of spec/ it formalises; where
a clause is the model's own choice it names the log entry. -/

open Sys2Proof Sys2Proof.Machine Sys2Proof.Safety

/-- Reset (R113): BUF and OUT start empty and REFUSED false, whatever the parameter and the host program; the RESET operation
empties BUF and leaves OUT and REFUSED. -/
def Obligations.ResetValues : Prop :=
  (State.reset.buf = [] ∧ State.reset.out = [] ∧ State.reset.refused = false) ∧
  (∀ n program, (State.powerOn n program).buf = [] ∧ (State.powerOn n program).out = [] ∧
    (State.powerOn n program).refused = false) ∧
  (∀ s, ∃ t, exec .reset s = .next t ∧ t.buf = [] ∧ t.out = s.out ∧ t.refused = s.refused)

/-- The state after reset meets the invariants that every step keeps (R86, R10, R69). -/
def Obligations.ResetMeetsInvariants : Prop := StateInv State.reset ∧ OutSound State.reset

/-- A step runs the decoded operation (R26, R30): when the bytes on the host port begin with an operation, the step is `exec`
of it on the state whose port holds what follows. -/
def Obligations.StepRunsDecodedOperation : Prop :=
  ∀ (s : State) (i : Instr) (rest : List Byte), s.refused = false → decodeHostOp s.hostPort = .instr i rest →
    step s = exec i { s with hostPort := rest }

/-- With nothing issued the block is idle and keeps its state (R111; that a step then changes nothing is log 3), and a run
that holds a refused operation goes no further (R92; log 4). -/
def Obligations.StepIdlesOrStops : Prop :=
  (∀ s : State, s.refused = false → s.hostPort = [] → step s = .next s) ∧
  (∀ s : State, s.refused = true → step s = .refused .afterRefusedOperation)

/-- NOP (R74): nothing changes; its encoding is the one byte 0x00; between operations it is the empty FEED. -/
def Obligations.NopChangesNothing : Prop :=
  encode .nop = [0x00#8] ∧
  ∀ s : State, exec .nop s = .next s ∧ (Quiescent s.buf → exec (.feed []) s = exec .nop s)

/-- RESET (R114, R122): its encoding is the one byte 0x02; BUF is emptied, whatever it held, and nothing else changes: no
event is emitted. Power-on leaves the same empty BUF. -/
def Obligations.ResetEmptiesBuffer : Prop :=
  encode .reset = [0x02#8] ∧ (∀ s : State, exec .reset s = .next { s with buf := [] }) ∧ ∀ n program, (State.powerOn n program).buf = []

/-- After RESET the rest of a partial frame, if it holds no START, is dropped without an event (R114, R77): in every state, REFUSED
true or not. -/
def Obligations.ResetLosesPartialFrame : Prop :=
  ∀ (s : State) (rest : List Byte), rest.length ≤ s.maxFeed → Config.startByte ∉ rest →
    ∃ u, exec .reset s = .next u ∧ exec (.feed rest) u = .next { s with buf := [] }

/-- Refused operations (R47): a reserved op byte, a FEED longer than MAX_FEED, and a FEED whose encoding ends before its data
(before its LEN field is whole, or before LEN bytes follow) set REFUSED and leave BUF and OUT. -/
def Obligations.RefusedOperationsChangeNothing : Prop :=
  (∀ (op : Byte) (s : State), exec (.reservedHostOp op) s = .next { s with refused := true }) ∧
  (∀ (chunk : List Byte) (s : State), s.maxFeed < chunk.length →
    exec (.feed chunk) s = .next { s with refused := true }) ∧
  (∀ (s : State) (rest : List Byte), s.refused = false → s.hostPort = 0x01#8 :: rest →
    (rest.length < 2 ∨ ∃ hi lo data, rest = hi :: lo :: data ∧ data.length < 256 * hi.toNat + lo.toNat) →
    ∃ t, step s = .next t ∧ t.refused = true ∧ t.buf = s.buf ∧ t.out = s.out ∧ t.maxFeed = s.maxFeed)

/-- REFUSED is set exactly by the operations that have no meaning, and never cleared (R16, R47; for the frames R50 and
`Encode`'s domain, log 8). Every instruction completes, so this speaks of each of them. -/
def Obligations.RefusedMarkIsSticky : Prop :=
  ∀ (i : Instr) (s : State), ∃ t, exec i s = .next t ∧ (t.refused = true ↔ s.refused = true ∨ RefusedHere i s)

/-- A run that answers a next state is a successful one (R16, R92): REFUSED is true neither in its start state nor in its
final state. A run with a refused operation in it answers none, whatever follows that operation. That such a run answers
exactly the refusal `afterRefusedOperation` is the model's (DEDUCED from R16, R47 and R92, log 4), and so is what makes a frame
instruction refused in `RefusedHere` (log 8: that it is the FEED of its frame, DEDUCED; that it is refused outside `Encode`'s
domain or above MAX_FEED, DESIGN CHOICE). -/
def Obligations.SuccessfulRunHoldsNoRefusal : Prop :=
  (∀ (is : List Instr) (s t : State), performAll is s = .next t → s.refused = false ∧ t.refused = false) ∧
  (∀ (before after : List Instr) (i : Instr) (s u : State), performAll before s = .next u → RefusedHere i u →
    performAll (before ++ i :: after) s = .refused .afterRefusedOperation)

/-- FEED obeys the reassembly rules (R73, R75 to R84): an accepted FEED completes, with the one BUF and the one sequence of
events that the rules, stated as a relation on the bytes, allow; everything else in State stays. -/
def Obligations.FeedObeysReassemblyRules : Prop :=
  ∀ (chunk : List Byte) (s : State), chunk.length ≤ s.maxFeed →
    ∃ events buf', exec (.feed chunk) s = .next { s with buf := buf', out := s.out ++ events } ∧
      Reassembles (s.buf ++ chunk) events buf' ∧
      ∀ events2 buf2, Reassembles (s.buf ++ chunk) events2 buf2 → events2 = events ∧ buf2 = buf'

/-- Step 1 (R77): with no START in BUF and chunk, BUF is emptied and no event is emitted. -/
def Obligations.FeedWithoutStartEmptiesBuffer : Prop :=
  ∀ (chunk : List Byte) (s : State), chunk.length ≤ s.maxFeed → Config.startByte ∉ s.buf ++ chunk →
    exec (.feed chunk) s = .next { s with buf := [] }

/-- Step 2 (R78): the bytes before the first START are dropped without an event: the FEED goes on as if BUF began there. -/
def Obligations.FeedDropsNoiseBeforeStart : Prop :=
  ∀ (chunk noise rest : List Byte) (s : State), chunk.length ≤ s.maxFeed → Config.startByte ∉ noise →
    s.buf ++ chunk = noise ++ Config.startByte :: rest →
    exec (.feed chunk) s = exec (.feed []) { s with buf := Config.startByte :: rest }

/-- Step 3 (R79): fewer than 11 bytes from the first START on are kept, an END among them or not. -/
def Obligations.FeedShortBufferWaits : Prop :=
  ∀ (chunk noise rest : List Byte) (s : State), chunk.length ≤ s.maxFeed → Config.startByte ∉ noise →
    s.buf ++ chunk = noise ++ Config.startByte :: rest → (Config.startByte :: rest).length < 11 →
    exec (.feed chunk) s = .next { s with buf := Config.startByte :: rest }

/-- Step 4 (R81, R99): without an END after the START, more than 512 bytes are discarded whole and OVERFLOW is emitted. -/
def Obligations.FeedOverflowDiscardsBuffer : Prop :=
  ∀ (chunk noise rest : List Byte) (s : State), chunk.length ≤ s.maxFeed → Config.startByte ∉ noise →
    s.buf ++ chunk = noise ++ Config.startByte :: rest → Config.endByte ∉ rest →
    512 < (Config.startByte :: rest).length →
    exec (.feed chunk) s = .next { s with buf := [], out := s.out ++ [.overflow] }

/-- Step 4 (R82): without an END after the START, at most 512 bytes are kept, and no event is emitted. -/
def Obligations.FeedWithinThresholdHolds : Prop :=
  ∀ (chunk noise rest : List Byte) (s : State), chunk.length ≤ s.maxFeed → Config.startByte ∉ noise →
    s.buf ++ chunk = noise ++ Config.startByte :: rest → Config.endByte ∉ rest →
    (Config.startByte :: rest).length ≤ 512 →
    exec (.feed chunk) s = .next { s with buf := Config.startByte :: rest }

/-- Steps 5 and 6 (R83, R84): the candidate from the START through the first END is validated, exactly one event is emitted
for it, it is removed whether valid or not, and the FEED goes on with the bytes behind it. -/
def Obligations.FeedCutsCandidate : Prop :=
  ∀ (chunk noise body tail : List Byte) (s : State), chunk.length ≤ s.maxFeed → Config.startByte ∉ noise →
    Config.endByte ∉ body → s.buf ++ chunk = noise ++ Config.startByte :: body ++ Config.endByte :: tail →
    11 ≤ (Config.startByte :: body ++ Config.endByte :: tail).length →
    exec (.feed chunk) s = exec (.feed [])
      { s with buf := tail, out := s.out ++ [match validate (Config.startByte :: body ++ [Config.endByte]) with
                                              | .ok m => .frameOk m
                                              | .err k => .frameErr k] }

/-- An accepted FEED leaves one of the quiescent forms Q1, Q2, Q3, whatever BUF it started from, and on it the loop makes no
progress (R86). -/
def Obligations.FeedLeavesQuiescentBuffer : Prop :=
  ∀ (chunk : List Byte) (s : State), chunk.length ≤ s.maxFeed →
    ∃ t, exec (.feed chunk) s = .next t ∧ Quiescent t.buf ∧ exec (.feed []) t = .next t

/-- The empty FEED from a quiescent BUF changes nothing and emits nothing (R88). -/
def Obligations.EmptyFeedIsNop : Prop :=
  ∀ s : State, Quiescent s.buf → exec (.feed []) s = .next s ∧ exec .nop s = .next s

/-- Every step keeps BUF quiescent, so never longer than 512 bytes, and MAX_FEED within its bounds (R86, R87, R10). -/
def Obligations.StepKeepsInvariant : Prop :=
  ∀ s t : State, StateInv s → step s = .next t → StateInv t ∧ t.buf.length ≤ 512

/-- Every step keeps the output sound (R69, R98): BAD_START is never emitted, and every message delivered fits the format and
has a frame without an inner END. -/
def Obligations.StepKeepsOutputSound : Prop :=
  ∀ s t : State, OutSound s → step s = .next t → OutSound t

/-- OUT is only ever appended to (R15), and MAX_FEED stays (R20), by every instruction and by every step. That an instruction
leaves `hostPort`, the operations still to be issued, is the model's: the field is its own (DESIGN CHOICE, log 2). -/
def Obligations.OutputIsAppendOnly : Prop :=
  (∀ (i : Instr) (s : State), ∃ t events, exec i s = .next t ∧ t.out = s.out ++ events ∧ t.maxFeed = s.maxFeed ∧
    t.hostPort = s.hostPort) ∧
  (∀ s t : State, step s = .next t → (∃ events, t.out = s.out ++ events) ∧ t.maxFeed = s.maxFeed)

/-- Only FEED and RESET change BUF (R11): a step that changes it performed one of the two. -/
def Obligations.OnlyFeedAndResetChangeBuffer : Prop :=
  ∀ s t : State, step s = .next t → t.buf ≠ s.buf →
    ∃ rest, decodeHostOp s.hostPort = .instr .reset rest ∨ ∃ chunk, decodeHostOp s.hostPort = .instr (.feed chunk) rest

/-- Every effect of a FEED follows from its chunk and the BUF it starts with (R27): two states that agree on BUF and MAX_FEED
get the same new BUF and the same events. -/
def Obligations.FeedDependsOnBufferOnly : Prop :=
  ∀ (chunk : List Byte) (s1 s2 : State), s1.buf = s2.buf → s1.maxFeed = s2.maxFeed →
    ∃ t1 t2 events, exec (.feed chunk) s1 = .next t1 ∧ exec (.feed chunk) s2 = .next t2 ∧ t1.buf = t2.buf ∧
      t1.out = s1.out ++ events ∧ t2.out = s2.out ++ events

/-- Within a FEED BUF never holds more than 512 + MAX_FEED bytes (R12): that bounds its length after the append, and every pass
of the loop only shortens it, a pass that does not exit by at least 2 bytes (R76). -/
def Obligations.FeedFitsBufferCapacity : Prop :=
  ∀ (chunk : List Byte) (s : State), Quiescent s.buf → chunk.length ≤ s.maxFeed →
    (s.buf ++ chunk).length ≤ 512 + s.maxFeed ∧
    (∃ t, exec (.feed chunk) s = .next t ∧ t.buf.length ≤ (s.buf ++ chunk).length) ∧
    ∀ buf buf' : List Byte,
      (∀ events, loopPass buf = .exit buf' events → buf'.length ≤ buf.length) ∧
      (∀ event, loopPass buf = .again buf' event → buf'.length + 2 ≤ buf.length)

/-- The loop ends within `floor(L / 2) + 1` passes (R85): more passes change nothing. -/
def Obligations.LoopEndsWithinHalfLength : Prop :=
  ∀ (buf : List Byte) (fuel : Nat), buf.length / 2 + 1 ≤ fuel → loop fuel buf = reassemble buf

/-- The number of events of one FEED, and OVERFLOW at most once and last (R89). -/
def Obligations.FeedEventBound : Prop :=
  ∀ (chunk : List Byte) (s : State), chunk.length ≤ s.maxFeed →
    ∃ t events, exec (.feed chunk) s = .next t ∧ t.out = s.out ++ events ∧
      events.length ≤ (s.buf ++ chunk).length / 2 ∧
      (∀ before after, events = before ++ .overflow :: after → .overflow ∉ before ∧ after = []) ∧
      (s.buf.length ≤ 512 → events.length ≤ 256 + s.maxFeed / 2)

/-- A frame instruction is the FEED of its frame's bytes (R50): in every state, for every frame that has an encoding. Stated of
framePublish, frameSubscribe, frameAck, framePing, framePong and frameUnnamedType. -/
def Obligations.FrameIsFeedOfItsEncoding : Prop :=
  ∀ (i : Instr) (s : State), i.format = .frameType → i.Wf → exec i s = exec (.feed (encode i)) s

/-- Each frame, of a named TYPE or not, with any id, QOS, topic and payload, fed where no START is pending, is delivered: one
FRAME_OK with the fields unchanged, if it holds no inner END and MAX_FEED admits it (R65, R67, R40, R41, R42, R83, R84). That
a frame row, as an instruction, completes as the FEED of its frame is the model's reading (DEDUCED from R50, log 8). Frames
with an inner END are the subject of InnerEndCutsFrame and InnerEndIsNeverDelivered, and frames met by a pending START of
PendingStartSwallowsFrame. -/
def Obligations.FrameIsDelivered : Prop :=
  ∀ (id : Half) (qos : Byte) (topic payload : List Byte) (s : State),
    Delivered ⟨0x01#8, id, qos, topic, payload⟩ (.framePublish id qos topic payload) s ∧
    Delivered ⟨0x02#8, id, qos, topic, payload⟩ (.frameSubscribe id qos topic payload) s ∧
    Delivered ⟨0x03#8, id, qos, topic, payload⟩ (.frameAck id qos topic payload) s ∧
    Delivered ⟨0x04#8, id, qos, topic, payload⟩ (.framePing id qos topic payload) s ∧
    Delivered ⟨0x05#8, id, qos, topic, payload⟩ (.framePong id qos topic payload) s ∧
    ∀ type : Byte, Delivered ⟨type, id, qos, topic, payload⟩ (.frameUnnamedType type id qos topic payload) s

/-- A frame longer than MAX_FEED, or with fields the format cannot hold, is refused (R50, R47; the domain of `Encode`: R70,
log 8): REFUSED is set and nothing else changes. -/
def Obligations.FrameTooLongIsRefused : Prop :=
  ∀ (i : Instr) (m : Message) (s : State), i.message? = some m →
    (¬ m.Wf ∨ s.maxFeed < 11 + m.topic.length + m.payload.length) →
    exec i s = .next { s with refused := true }

/-- Every instruction that has an encoding decodes, in its own format, to itself (R46, R36, R70, R71). -/
def Obligations.DecodeOfEncode : Prop :=
  ∀ i : Instr, i.Wf → decode i.format (encode i) = .instr i []

/-- A host program decodes operation by operation (R46): an operation's bytes at the head of any sequence decode to it, and
what follows is left. R46 defines no following bytes for a reserved op byte; that it takes that one byte and leaves the rest is
the model's (DESIGN CHOICE, log 6). -/
def Obligations.HostOpDecodesAtHead : Prop :=
  ∀ (i : Instr) (rest : List Byte), i.format = .hostOp → i.Wf → decodeHostOp (encode i ++ rest) = .instr i rest

/-- The host operation decoder accepts only encodings (R46): whatever it reads was the encoding of what it answers. That a
reserved op byte is a whole encoding by itself is the model's (DESIGN CHOICE, log 6). -/
def Obligations.HostOpDecodeIsExact : Prop :=
  ∀ (s : List Byte) (i : Instr) (rest : List Byte), decodeHostOp s = .instr i rest →
    i.format = .hostOp ∧ i.Wf ∧ s = encode i ++ rest

/-- Words written out from the spec's tables decode to what they stand for: V-H1 to V-H5, V-H7 and the frames V-F1, V-F3,
V-F5; and, written out from R46, a FEED with another operation behind it. -/
def Obligations.SpecWordsDecode : Prop :=
  decodeHostOp [0x00#8] = .instr .nop [] ∧
  decodeHostOp [0x02#8] = .instr .reset [] ∧
  decodeHostOp [0x01#8, 0x00#8, 0x00#8] = .instr (.feed []) [] ∧
  decodeHostOp [0x01#8, 0x00#8, 0x0B#8, 0x7E#8, 0x03#8, 0x00#8, 0x01#8, 0x00#8, 0x00#8, 0x00#8, 0x00#8, 0x83#8, 0x1D#8,
      0x7F#8] = .instr (.feed [0x7E#8, 0x03#8, 0x00#8, 0x01#8, 0x00#8, 0x00#8, 0x00#8, 0x00#8, 0x83#8, 0x1D#8, 0x7F#8]) [] ∧
  decodeHostOp [0x01#8, 0x00#8, 0x02#8, 0x7E#8, 0x03#8, 0x02#8] = .instr (.feed [0x7E#8, 0x03#8]) [0x02#8] ∧
  decodeHostOp [0x03#8] = .instr (.reservedHostOp 0x03#8) [] ∧
  decodeHostOp [0x01#8, 0x00#8, 0x05#8, 0x7E#8, 0x03#8] = .reject .truncatedFeed ∧
  decodeFrame [0x7E#8, 0x03#8, 0x00#8, 0x01#8, 0x00#8, 0x00#8, 0x00#8, 0x00#8, 0x83#8, 0x1D#8, 0x7F#8] =
    .instr (.frameAck 0x0001#16 0x00#8 [] []) [] ∧
  decodeFrame [0x7E#8, 0x04#8, 0x12#8, 0x34#8, 0x00#8, 0x00#8, 0x00#8, 0x00#8, 0x24#8, 0x24#8, 0x7F#8] =
    .instr (.framePing 0x1234#16 0x00#8 [] []) [] ∧
  decodeFrame [0x7E#8, 0x09#8, 0xBE#8, 0xEF#8, 0x02#8, 0x01#8, 0x61#8, 0x00#8, 0x01#8, 0x7E#8, 0xCF#8, 0xF7#8, 0x7F#8] =
    .instr (.frameUnnamedType 0x09#8 0xBEEF#16 0x02#8 [0x61#8] [0x7E#8]) []

/-- The 16-bit fields are big-endian (R21): `be16` weighs the first byte by 256, and the two bytes sent for a value read back
as it. -/
def Obligations.FieldsAreBigEndian : Prop :=
  (∀ (s : List Byte) (i : Nat) (hi lo : Byte), s[i]? = some hi → s[i + 1]? = some lo →
    (be16 s i).toNat = 256 * hi.toNat + lo.toNat) ∧
  (∀ v : Half, ofBytes (hiByte v) (loByte v) = v ∧ (hiByte v).toNat = v.toNat / 256)

/-- The round trip (R71): `Validate(Encode(m)) = OK(m)`. Through the reassembler, from an empty BUF, the message is delivered
exactly when no byte at offsets 1 to n-2 of its frame is END. -/
def Obligations.ValidateInvertsEncode : Prop :=
  ∀ m : Message, m.Wf → validate (encodeMessage m) = .ok m ∧
    ∀ s : State, s.buf = [] → (encodeMessage m).length ≤ s.maxFeed →
      ∃ t events, exec (.feed (encodeMessage m)) s = .next t ∧ t.out = s.out ++ events ∧
        (.frameOk m ∈ events ↔ CleanInside m)

/-- `Validate` accepts nothing but frames (R58, R64, R65): what it accepts is the encoding of the message it answers. -/
def Obligations.ValidateAcceptsOnlyFrames : Prop :=
  ∀ (s : List Byte) (m : Message), validate s = .ok m → m.Wf ∧ s = encodeMessage m

/-- The first two checks (R59, R60), in their order (R66): a first byte other than START, then a length below 11. -/
def Obligations.ValidateChecksStartThenLength : Prop :=
  (∀ (b : Byte) (s : List Byte), b ≠ Config.startByte → validate (b :: s) = .err .badStart) ∧
  (∀ s : List Byte, (Config.startByte :: s).length < 11 → validate (Config.startByte :: s) = .err .tooShort) ∧
  validate [] = .err .tooShort

/-- The length checks (R61, R62, R68): with START first and at least 11 bytes, a TOPIC_LEN, or a TOPIC_LEN and PAYLOAD_LEN,
that describe a frame longer than the bytes. The sums are exact. -/
def Obligations.ValidateRejectsOverrun : Prop :=
  ∀ (type idHi idLo qos tl : Byte) (rest : List Byte),
    11 ≤ (Config.startByte :: type :: idHi :: idLo :: qos :: tl :: rest).length →
    ((Config.startByte :: type :: idHi :: idLo :: qos :: tl :: rest).length < 11 + tl.toNat →
      validate (Config.startByte :: type :: idHi :: idLo :: qos :: tl :: rest) = .err .lenOverrun) ∧
    (∀ (topic tail : List Byte) (plHi plLo : Byte), rest = topic ++ plHi :: plLo :: tail → topic.length = tl.toNat →
      3 ≤ tail.length → tail.length < 3 + 256 * plHi.toNat + plLo.toNat →
      validate (Config.startByte :: type :: idHi :: idLo :: qos :: tl :: rest) = .err .lenOverrun)

/-- The remaining checks and the extraction (R63, R64, R65, R66): with the length fields consistent, a wrong CRC, then a wrong
END or bytes after it, and otherwise the fields unchanged. -/
def Obligations.ValidateWholeFrame : Prop :=
  ∀ (type idHi idLo qos tl plHi plLo crcHi crcLo last : Byte) (topic payload extra : List Byte),
    topic.length = tl.toNat → payload.length = 256 * plHi.toNat + plLo.toNat →
    validate ([Config.startByte, type, idHi, idLo, qos, tl] ++ topic ++ [plHi, plLo] ++ payload ++
        [crcHi, crcLo, last] ++ extra) =
      if crc16 ([type, idHi, idLo, qos, tl] ++ topic ++ [plHi, plLo] ++ payload) ≠ ofBytes crcHi crcLo then
        .err .crcMismatch
      else if last ≠ Config.endByte ∨ extra ≠ [] then .err .badEnd
      else .ok ⟨type, ofBytes idHi idLo, qos, topic, payload⟩

/-- What `Validate` answers on the slices the block hands it (R69): from a START through the first END after it. -/
def Obligations.CandidateVerdicts : Prop :=
  ∀ body : List Byte, Config.endByte ∉ body →
    validate (Config.startByte :: body ++ [Config.endByte]) ≠ .err .badStart ∧
    (validate (Config.startByte :: body ++ [Config.endByte]) = .err .tooShort ↔
      (Config.startByte :: body ++ [Config.endByte]).length < 11) ∧
    (validate (Config.startByte :: body ++ [Config.endByte]) = .err .badEnd ↔
      expectedLength (Config.startByte :: body ++ [Config.endByte]) <
        (Config.startByte :: body ++ [Config.endByte]).length ∧
      CrcMatches (Config.startByte :: body ++ [Config.endByte])) ∧
    (∀ m, validate (Config.startByte :: body ++ [Config.endByte]) = .ok m →
      expectedLength (Config.startByte :: body ++ [Config.endByte]) =
        (Config.startByte :: body ++ [Config.endByte]).length)

/-- The CRC's check value and its value on the empty sequence and on V-C6 (R55, R52, R51). -/
def Obligations.CrcCheckValues : Prop :=
  crc16 [0x31#8, 0x32#8, 0x33#8, 0x34#8, 0x35#8, 0x36#8, 0x37#8, 0x38#8, 0x39#8] = 0x29B1#16 ∧
  crc16 [] = 0xFFFF#16 ∧
  crc16 [0x03#8, 0x00#8, 0x01#8, 0x00#8, 0x00#8, 0x00#8, 0x00#8] = 0x831D#16

/-- Sequences of the same length that differ in exactly one bit have different CRCs (R56). -/
def Obligations.CrcDetectsSingleBit : Prop :=
  ∀ (s : List Byte) (p k : Nat), p < s.length → k < 8 → crc16 (flipBit s p k) ≠ crc16 s

/-- CRC16 is affine over GF(2) on the sequences of one length (R56's proof). -/
def Obligations.CrcIsAffine : Prop :=
  ∀ a b c : List Byte, a.length = b.length → b.length = c.length →
    crc16 (List.zipWith (· ^^^ ·) (List.zipWith (· ^^^ ·) a b) c) = crc16 a ^^^ crc16 b ^^^ crc16 c

/-- CRC16 is division by `x^16 + x^12 + x^5 + 1` over GF(2) (R53): the register is congruent to the initial value, shifted past
the message, plus the message times `x^16`. Its degree is below 16, so it is the remainder. -/
def Obligations.CrcIsPolynomialRemainder : Prop :=
  let bits : (w : Nat) → BitVec w → Polynomial (ZMod 2) := fun w v =>
    ∑ i ∈ Finset.range w, if v.getLsbD i then Polynomial.X ^ i else 0
  ∀ s : List Byte,
    (Polynomial.X ^ 16 + Polynomial.X ^ 12 + Polynomial.X ^ 5 + 1 : Polynomial (ZMod 2)) ∣
      bits 16 (crc16 s) + bits 16 0xFFFF#16 * Polynomial.X ^ (8 * s.length) +
        s.foldl (fun p b => p * Polynomial.X ^ 8 + bits 8 b) 0 * Polynomial.X ^ 16

/-- One bit of a frame flipped at an offset of the CRC span is never accepted, and the kind follows from where the bit is
(R72). -/
def Obligations.BitFlipIsRejected : Prop :=
  ∀ (m : Message) (p k : Nat), m.Wf → 1 ≤ p → p ≤ (encodeMessage m).length - 4 → k < 8 →
    (∀ m', validate (flipBit (encodeMessage m) p k) ≠ .ok m') ∧
    (p ≠ 5 → p ≠ 6 + m.topic.length → p ≠ 7 + m.topic.length →
      validate (flipBit (encodeMessage m) p k) = .err .crcMismatch) ∧
    ((p = 5 ∨ p = 6 + m.topic.length ∨ p = 7 + m.topic.length) →
      ((encodeMessage m).length < expectedLength (flipBit (encodeMessage m) p k) →
        validate (flipBit (encodeMessage m) p k) = .err .lenOverrun) ∧
      (expectedLength (flipBit (encodeMessage m) p k) = (encodeMessage m).length →
        p = 5 ∧ validate (flipBit (encodeMessage m) p k) = .err .crcMismatch) ∧
      (expectedLength (flipBit (encodeMessage m) p k) < (encodeMessage m).length →
        validate (flipBit (encodeMessage m) p k) =
          .err (if CrcMatches (flipBit (encodeMessage m) p k) then .badEnd else .crcMismatch)))

/-- An END byte inside a frame cuts it, and it is not delivered (R116): fed where no START is pending, its first candidate is
reported as TOO_SHORT or LEN_OVERRUN, and no event of the FEED is its FRAME_OK. R116 lists four kinds; that only these two
are left is inferred from the checks and the layout (R60, R61, R62, R36, R70). A frame fed after a pending START, or over several
FEEDs, is in InnerEndIsNeverDelivered. -/
def Obligations.InnerEndCutsFrame : Prop :=
  ∀ (m : Message) (s : State), m.Wf → ¬ CleanInside m → Config.startByte ∉ s.buf →
    (encodeMessage m).length ≤ s.maxFeed →
    ∃ t kind events, exec (.feed (encodeMessage m)) s = .next t ∧ t.out = s.out ++ .frameErr kind :: events ∧
      (kind = .tooShort ∨ kind = .lenOverrun) ∧ .frameOk m ∉ events

/-- A frame with an inner END is never delivered (R116): whatever BUF held, a START pending in it or not, and however the frame
is spread over FEEDs, no instruction emits its FRAME_OK. -/
def Obligations.InnerEndIsNeverDelivered : Prop :=
  ∀ (m : Message) (i : Instr) (s : State), ¬ CleanInside m →
    ∃ t events, exec i s = .next t ∧ t.out = s.out ++ events ∧ .frameOk m ∉ events

/-- A START left pending swallows the next frame (R119): the frame's END closes a candidate that runs from the old START
through it, its one event is not the frame's FRAME_OK, and BUF is empty again. -/
def Obligations.PendingStartSwallowsFrame : Prop :=
  ∀ (m : Message) (pending : List Byte) (s : State), m.Wf → CleanInside m →
    s.buf = Config.startByte :: pending → Config.endByte ∉ pending → (encodeMessage m).length ≤ s.maxFeed →
    ∃ event, exec (.feed (encodeMessage m)) s = .next { s with buf := [], out := s.out ++ [event] } ∧
      event ≠ .frameOk m

/-- Chunk-size independence and its limit (R90): if a chunked run emits no OVERFLOW, one FEED of the whole stream, and every
other chunking that emits none, ends in the same state: the same events and the same BUF. -/
def Obligations.ChunkSizeIndependence : Prop :=
  ∀ (s t : State) (chunks : List (List Byte)), Quiescent s.buf → (∀ c ∈ chunks, c.length ≤ s.maxFeed) →
    feedAll chunks s = .next t → .overflow ∉ t.out.drop s.out.length →
    (chunks.flatten.length ≤ s.maxFeed → exec (.feed chunks.flatten) s = .next t) ∧
    (∀ (t' : State) (others : List (List Byte)), (∀ c ∈ others, c.length ≤ s.maxFeed) →
      others.flatten = chunks.flatten → feedAll others s = .next t' → .overflow ∉ t'.out.drop s.out.length → t' = t)

/-- A frame of 514 bytes or more is received only if one FEED carries at least all of it but its first 512 bytes, from a BUF
that holds the bytes before them (R91, R121). -/
def Obligations.LongFrameNeedsLongFeed : Prop :=
  ∀ (m : Message) (s t : State) (chunks : List (List Byte)), m.Wf → CleanInside m →
    514 ≤ (encodeMessage m).length → s.buf = [] → (∀ c ∈ chunks, c.length ≤ s.maxFeed) →
    chunks.flatten = encodeMessage m → feedAll chunks s = .next t → .frameOk m ∈ t.out.drop s.out.length →
    ∃ before chunk after u, chunks = before ++ chunk :: after ∧ after.flatten = [] ∧
      (encodeMessage m).length - 512 ≤ chunk.length ∧ feedAll before s = .next u ∧ u.buf = before.flatten

/-- Byte by byte (R90, R91, C2): a frame of at most 513 bytes without an inner END is delivered, and a longer one overflows at
its 513th byte. A run starts with REFUSED false (R92). -/
def Obligations.ByteAtATime : Prop :=
  ∀ (m : Message) (s : State), m.Wf → CleanInside m → s.buf = [] → s.refused = false → 1 ≤ s.maxFeed →
    ((encodeMessage m).length ≤ 513 →
      feedAll ((encodeMessage m).map fun b => [b]) s = .next { s with out := s.out ++ [.frameOk m] }) ∧
    (514 ≤ (encodeMessage m).length →
      feedAll (((encodeMessage m).take 513).map fun b => [b]) s = .next { s with out := s.out ++ [.overflow] })

/-- The event codes (R48), and no code above 0x06. -/
def Obligations.EventCodes : Prop :=
  (∀ m, (Event.frameOk m).code = 0x00#8) ∧ (Event.frameErr .badStart).code = 0x01#8 ∧
  (Event.frameErr .tooShort).code = 0x02#8 ∧ (Event.frameErr .lenOverrun).code = 0x03#8 ∧
  (Event.frameErr .crcMismatch).code = 0x04#8 ∧ (Event.frameErr .badEnd).code = 0x05#8 ∧
  Event.overflow.code = 0x06#8 ∧ ∀ e : Event, e.code.toNat ≤ 6

/-- A host program is performed in order, each operation once (R30, R46): with the encodings of operations on the port, as many
steps as there are operations end where a successful run of them does. That the program waits in `hostPort`, that a step takes
one operation from it and that the rest is left there is the model's (DESIGN CHOICE, log 2). -/
def Obligations.HostProgramRunsInOrder : Prop :=
  ∀ (is : List Instr) (s t : State) (rest : List Byte), (∀ i ∈ is, i.format = .hostOp ∧ i.Wf) →
    s.hostPort = encodeProgram is ++ rest → performAll is s = .next t →
    Host.Core.run Sys2Proof.core is.length s = .next { t with hostPort := rest }

/-- The pseudo-operations expand as R50's table says, within MAX_FEED; FEEDBYTES has at least one operand there. -/
def Obligations.PseudoOperationsExpand : Prop :=
  (∀ (n : Nat) (m : Message), m.Wf → (AsmOp.feedFrame m).expand n =
    if (encodeMessage m).length ≤ n then some [.feed (encodeMessage m)] else none) ∧
  (∀ (n k : Nat) (v : Byte), (AsmOp.feedFill v k).expand n =
    if k ≤ n then some [.feed (List.replicate k v)] else none) ∧
  (∀ (n : Nat) (b : Byte) (bytes : List Byte),
    (AsmOp.feedBytes (b :: bytes)).expand n = some (.feed [b] :: bytes.map fun b => .feed [b]))

/-- FEEDBYTES without an operand stands for no operation. R50's form has at least one operand, so this is the model's choice
(DESIGN CHOICE, log 14). -/
def Obligations.FeedBytesOfNothing : Prop :=
  ∀ n : Nat, (AsmOp.feedBytes []).expand n = some [] ∧ assemble n [.feedBytes []] = some []

/-- What the assembler accepts is a host program of which no operation is refused (R49, R50): its bytes are the encodings of
operations that each fit MAX_FEED, in order. -/
def Obligations.AssembledProgramIsAccepted : Prop :=
  ∀ (n : Nat) (ops : List AsmOp) (bytes : List Byte), FeedBound n → assemble n ops = some bytes →
    ∃ is, bytes = encodeProgram is ∧
      ∀ i ∈ is, i.format = .hostOp ∧ i.Wf ∧ ∀ s : State, s.maxFeed = n → ¬ RefusedHere i s
end

