-- ==== Sys2Proof/Laws/Bytes.lean ====
section
/-! SUPPORT. What indexing, slices, the search and the big-endian fields do on a sequence written as parts joined by `++`. -/

namespace Sys2Proof.Machine

theorem byteAt_append_left {a : List Byte} {i : Nat} (b : List Byte) (h : i < a.length) :
    byteAt (a ++ b) i = byteAt a i := by
  simp [byteAt, List.getD_eq_getElem?_getD, List.getElem?_append_left h]

theorem byteAt_append_right {a : List Byte} {i : Nat} (b : List Byte) (h : a.length ≤ i) :
    byteAt (a ++ b) i = byteAt b (i - a.length) := by
  simp [byteAt, List.getD_eq_getElem?_getD, List.getElem?_append_right h]

@[simp] theorem byteAt_cons_zero (b : Byte) (s : List Byte) : byteAt (b :: s) 0 = b := rfl

@[simp] theorem byteAt_cons_succ (b : Byte) (s : List Byte) (i : Nat) :
    byteAt (b :: s) (i + 1) = byteAt s i := rfl

theorem byteAt_eq_getElem {s : List Byte} {i : Nat} (h : i < s.length) : byteAt s i = s[i] := by
  simp [byteAt, List.getD_eq_getElem?_getD, h]

/-- The slice between two parts of a sequence is what stands between them. -/
theorem slice_middle (a b c : List Byte) {lo hi : Nat} (ha : a.length = lo) (hb : a.length + b.length = hi + 1) :
    slice (a ++ b ++ c) lo hi = b := by
  subst ha
  simp [slice, ← hb, List.take_append]

/-- An inclusive slice from the front is a prefix. -/
theorem slice_zero (s : List Byte) (e : Nat) : slice s 0 e = s.take (e + 1) := by simp [slice]

theorem slice_length (s : List Byte) (a b : Nat) : (slice s a b).length = min (b + 1) s.length - a := by
  simp [slice]

theorem indexFrom_none {v : Byte} {i : Nat} {s : List Byte} : indexFrom v i s = none ↔ v ∉ s := by
  induction s generalizing i with
  | nil => simp [indexFrom]
  | cons b bs ih =>
    simp only [indexFrom, List.mem_cons, not_or]
    split
    · rename_i h; simp [h]
    · rename_i h; rw [ih]; exact ⟨fun hm => ⟨fun e => h e.symm, hm⟩, fun hm => hm.2⟩

/-- The search stops at the first `v`: before it there is none. -/
theorem indexFrom_append {v : Byte} {i : Nat} {a : List Byte} (b : List Byte) (h : v ∉ a) :
    indexFrom v i (a ++ v :: b) = some (i + a.length) := by
  induction a generalizing i with
  | nil => simp [indexFrom]
  | cons x xs ih =>
    simp only [List.mem_cons, not_or] at h
    simp only [List.cons_append, indexFrom, if_neg (Ne.symm h.1), ih h.2, List.length_cons]
    congr 1; omega

/-- Every sequence either holds no `v` or splits at its first `v`. -/
theorem split_at_first (v : Byte) (s : List Byte) : v ∉ s ∨ ∃ a b, v ∉ a ∧ s = a ++ v :: b := by
  by_cases h : v ∈ s
  · obtain ⟨a, b, hs, ha⟩ := List.eq_append_cons_of_mem h
    exact .inr ⟨a, b, ha, hs⟩
  · exact .inl h

theorem find_zero_none {v : Byte} {s : List Byte} : find s v 0 = none ↔ v ∉ s := by
  simp [find, indexFrom_none]

theorem find_zero_some {v : Byte} {a : List Byte} (b : List Byte) (h : v ∉ a) :
    find (a ++ v :: b) v 0 = some a.length := by
  simp [find, indexFrom_append b h]

theorem find_one_none {v x : Byte} {s : List Byte} : find (x :: s) v 1 = none ↔ v ∉ s := by
  simp [find, indexFrom_none]

theorem find_one_some {v : Byte} (x : Byte) {a : List Byte} (b : List Byte) (h : v ∉ a) :
    find (x :: a ++ v :: b) v 1 = some (a.length + 1) := by
  simp [find, indexFrom_append b h, Nat.add_comm]

/-- A 16-bit value read back from the two bytes sent for it. -/
@[simp] theorem ofBytes_hi_lo (v : Half) : ofBytes (hiByte v) (loByte v) = v := by
  apply BitVec.eq_of_getLsbD_eq
  intro i hi
  simp only [ofBytes, hiByte, loByte, BitVec.getLsbD_append, BitVec.getLsbD_extractLsb']
  by_cases h : i < 8
  · simp [h]
  · have : i - 8 < 8 := by omega
    have : 8 + (i - 8) = i := by omega
    simp [*]

@[simp] theorem hiByte_ofBytes (hi lo : Byte) : hiByte (ofBytes hi lo) = hi := by
  apply BitVec.eq_of_getLsbD_eq
  intro i h
  simp only [ofBytes, hiByte, BitVec.getLsbD_extractLsb', BitVec.getLsbD_append]
  simp [h]

@[simp] theorem loByte_ofBytes (hi lo : Byte) : loByte (ofBytes hi lo) = lo := by
  apply BitVec.eq_of_getLsbD_eq
  intro i h
  simp only [ofBytes, loByte, BitVec.getLsbD_extractLsb', BitVec.getLsbD_append]
  simp [h]

/-- A big-endian field's value (R21). -/
theorem ofBytes_toNat (hi lo : Byte) : (ofBytes hi lo).toNat = 256 * hi.toNat + lo.toNat := by
  have := lo.isLt
  simp only [ofBytes, BitVec.toNat_append]
  rw [← Nat.shiftLeft_add_eq_or_of_lt this, Nat.shiftLeft_eq]
  omega

theorem be16_cons (hi lo : Byte) (s : List Byte) : be16 (hi :: lo :: s) 0 = ofBytes hi lo := rfl

/-- A field behind a part of known length. -/
theorem be16_middle (a : List Byte) (hi lo : Byte) (b : List Byte) {i : Nat} (h : a.length = i) :
    be16 (a ++ hi :: lo :: b) i = ofBytes hi lo := by
  subst h
  simp [be16, byteAt_append_right]

end Sys2Proof.Machine
end

