-- ==== Sys2Proof/Laws/Crc16.lean ====
section
/-! SUPPORT. The CRC register: it runs along a concatenation, and one shift is linear and loses nothing. -/

namespace Sys2Proof.Machine

/-- The register after a concatenation is the second part run from the register after the first. -/
theorem crc16_append (a b : List Byte) : crc16 (a ++ b) = b.foldl crcByte (crc16 a) := by
  simp [crc16, Config.crcXorOut]

/-- The final XOR changes nothing (R54). -/
theorem crc16_eq_fold (s : List Byte) : crc16 s = s.foldl crcByte Config.crcInit := by
  simp [crc16, Config.crcXorOut]

theorem crc16_nil : crc16 [] = Config.crcInit := by simp [crc16_eq_fold]

theorem crcShift_zero : crcShift 0 = 0 := by decide

/-- One shift is linear over GF(2). -/
theorem crcShift_xor (a b : Half) : crcShift (a ^^^ b) = crcShift a ^^^ crcShift b := by
  have poly (x y p : Half) : x ^^^ p ^^^ (y ^^^ p) = x ^^^ y := by
    rw [BitVec.xor_comm y p, BitVec.xor_assoc, ← BitVec.xor_assoc p p y]
    simp
  have left (x y p : Half) : x ^^^ y ^^^ p = x ^^^ p ^^^ y := by
    rw [BitVec.xor_assoc, BitVec.xor_comm y p, BitVec.xor_assoc]
  simp only [crcShift, BitVec.getLsbD_xor, BitVec.shiftLeft_xor_distrib]
  cases a.getLsbD 15 <;> cases b.getLsbD 15 <;>
    simp [poly, left, ← BitVec.xor_assoc]

/-- One shift loses nothing: only 0 goes to 0. -/
theorem crcShift_eq_zero {c : Half} (h : crcShift c = 0) : c = 0 := by
  apply BitVec.eq_of_getLsbD_eq
  intro i hi
  have bit0 : (crcShift c).getLsbD 0 = c.getLsbD 15 := by
    unfold crcShift Config.crcPoly
    split <;> rename_i h15 <;> simp_all
  have top : c.getLsbD 15 = false := by rw [← bit0, h]; simp
  rcases Nat.lt_or_ge i 15 with hlt | hge
  · have hs : crcShift c = c <<< 1 := by simp only [crcShift, top]; rfl
    have := congrArg (fun v : Half => v.getLsbD (i + 1)) (hs ▸ h)
    simp only [BitVec.getLsbD_shiftLeft] at this
    have h16 : i + 1 < 16 := by omega
    simpa [h16] using this
  · have : i = 15 := by omega
    subst this; simpa using top

end Sys2Proof.Machine
end

