-- ==== Sys2Proof/Laws/Frame.lean ====
section
/-! SUPPORT. Lengths of frames, and what the validator reads from a sequence laid out as a frame (R36). -/

namespace Sys2Proof.Machine

@[simp] theorem frameBody_length (m : Message) :
    (frameBody m).length = 7 + m.topic.length + m.payload.length := by
  simp [frameBody]; omega

/-- The total length of a frame (R37). -/
@[simp] theorem encodeMessage_length (m : Message) :
    (encodeMessage m).length = 11 + m.topic.length + m.payload.length := by
  simp [encodeMessage]; omega

/-- A sequence laid out as a frame's fields, with whatever follows them. -/
def framed (start type idHi idLo qos tl : Byte) (topic : List Byte) (plHi plLo : Byte) (payload : List Byte)
    (crcHi crcLo last : Byte) (extra : List Byte) : List Byte :=
  [start, type, idHi, idLo, qos, tl] ++ topic ++ [plHi, plLo] ++ payload ++ [crcHi, crcLo, last] ++ extra

section reads
variable (start type idHi idLo qos tl plHi plLo crcHi crcLo last : Byte) (topic payload extra : List Byte)

theorem framed_length : (framed start type idHi idLo qos tl topic plHi plLo payload crcHi crcLo last extra).length =
    11 + topic.length + payload.length + extra.length := by
  simp [framed]; omega

theorem framed_topicLen :
    byteAt (framed start type idHi idLo qos tl topic plHi plLo payload crcHi crcLo last extra) 5 = tl := by
  simp [framed]

theorem framed_payloadLen :
    be16 (framed start type idHi idLo qos tl topic plHi plLo payload crcHi crcLo last extra) (6 + topic.length) =
      ofBytes plHi plLo := by
  have := be16_middle ([start, type, idHi, idLo, qos, tl] ++ topic) plHi plLo
    (payload ++ [crcHi, crcLo, last] ++ extra) (i := 6 + topic.length) (by simp; omega)
  simpa [framed] using this

theorem framed_span :
    slice (framed start type idHi idLo qos tl topic plHi plLo payload crcHi crcLo last extra) 1
      (7 + topic.length + payload.length) =
      [type, idHi, idLo, qos, tl] ++ topic ++ [plHi, plLo] ++ payload := by
  have := slice_middle [start] ([type, idHi, idLo, qos, tl] ++ topic ++ [plHi, plLo] ++ payload)
    ([crcHi, crcLo, last] ++ extra) (lo := 1) (hi := 7 + topic.length + payload.length) rfl (by simp; omega)
  simpa [framed] using this

theorem framed_crc :
    be16 (framed start type idHi idLo qos tl topic plHi plLo payload crcHi crcLo last extra)
      (8 + topic.length + payload.length) = ofBytes crcHi crcLo := by
  have := be16_middle ([start, type, idHi, idLo, qos, tl] ++ topic ++ [plHi, plLo] ++ payload) crcHi crcLo
    (last :: extra) (i := 8 + topic.length + payload.length) (by simp; omega)
  simpa [framed] using this

theorem framed_last :
    byteAt (framed start type idHi idLo qos tl topic plHi plLo payload crcHi crcLo last extra)
      (10 + topic.length + payload.length) = last := by
  have hl : ([start, type, idHi, idLo, qos, tl] ++ topic ++ [plHi, plLo] ++ payload ++ [crcHi, crcLo]).length =
      10 + topic.length + payload.length := by simp; omega
  have := byteAt_append_right (last :: extra) (Nat.le_of_eq hl)
  simp only [hl, Nat.sub_self, byteAt_cons_zero] at this
  simpa [framed] using this

theorem framed_topic :
    slice (framed start type idHi idLo qos tl topic plHi plLo payload crcHi crcLo last extra) 6 (5 + topic.length) =
      topic := by
  have := slice_middle [start, type, idHi, idLo, qos, tl] topic
    ([plHi, plLo] ++ payload ++ [crcHi, crcLo, last] ++ extra) (lo := 6) (hi := 5 + topic.length) rfl (by simp; omega)
  simpa [framed] using this

theorem framed_payload :
    slice (framed start type idHi idLo qos tl topic plHi plLo payload crcHi crcLo last extra) (8 + topic.length)
      (7 + topic.length + payload.length) = payload := by
  have := slice_middle ([start, type, idHi, idLo, qos, tl] ++ topic ++ [plHi, plLo]) payload
    ([crcHi, crcLo, last] ++ extra) (lo := 8 + topic.length) (hi := 7 + topic.length + payload.length)
    (by simp; omega) (by simp; omega)
  simpa [framed] using this

/-- The fields the validator extracts from a sequence laid out as a frame (R65). -/
theorem framed_extract :
    extract (framed start type idHi idLo qos tl topic plHi plLo payload crcHi crcLo last extra) topic.length
      payload.length = ⟨type, ofBytes idHi idLo, qos, topic, payload⟩ := by
  simp only [extract, framed_topic, framed_payload]
  simp [framed, be16]

end reads

/-- The frame of a message is laid out as its fields (R70). -/
theorem encodeMessage_eq_framed (m : Message) :
    encodeMessage m = framed Config.startByte m.type (hiByte m.id) (loByte m.id) m.qos
      (BitVec.ofNat 8 m.topic.length) m.topic (hiByte (BitVec.ofNat 16 m.payload.length))
      (loByte (BitVec.ofNat 16 m.payload.length)) m.payload (hiByte (crc16 (frameBody m)))
      (loByte (crc16 (frameBody m))) Config.endByte [] := by
  simp [encodeMessage, framed, frameBody]

open Sys2Proof.Safety in
/-- The checks of `validate` on at least 11 bytes with START first, by the expected length (R61 to R65). -/
theorem validate_long {s : List Byte} (h0 : byteAt s 0 = Config.startByte) (h11 : 11 ≤ s.length) :
    validate s =
      if s.length < expectedLength s then .err .lenOverrun
      else if ¬ CrcMatches s then .err .crcMismatch
      else if byteAt s (expectedLength s - 1) ≠ Config.endByte ∨ expectedLength s ≠ s.length then .err .badEnd
      else .ok (extract s (byteAt s 5).toNat (be16 s (6 + (byteAt s 5).toNat)).toNat) := by
  have hmin : ¬ s.length < Config.minFrame := Nat.not_lt.2 h11
  simp only [validate, h0, ne_eq, not_true, and_false, if_false, hmin]
  by_cases h : s.length < 11 + (byteAt s 5).toNat
  · have h2 : s.length < expectedLength s := by simp only [expectedLength]; omega
    rw [if_pos h, if_pos h2]
  · rw [if_neg h]; rfl

end Sys2Proof.Machine
end

