-- ==== Sys2Proof/Laws/Reassembler.lean ====
section
/-! SUPPORT. What one pass of the reassembly loop does to a BUF written as its parts, and that the loop computes exactly the
relation `Reassembles`. -/

namespace Sys2Proof.Machine

open Sys2Proof.Safety

theorem loopPass_noStart {buf : List Byte} (h : Config.startByte ∉ buf) : loopPass buf = .exit [] [] := by
  simp [loopPass, find_zero_none.2 h, clear]

/-- With a START, a pass drops what stands before it and looks at the rest. -/
theorem loopPass_start {noise : List Byte} (rest : List Byte) (h : Config.startByte ∉ noise) :
    loopPass (noise ++ Config.startByte :: rest) =
      if (Config.startByte :: rest).length < Config.minFrame then .exit (Config.startByte :: rest) []
      else cutCandidate (Config.startByte :: rest) := by
  simp [loopPass, find_zero_some rest h, dropFront]

theorem cutCandidate_noEnd {rest : List Byte} (h : Config.endByte ∉ rest) :
    cutCandidate (Config.startByte :: rest) =
      if Config.ovfThreshold < (Config.startByte :: rest).length then .exit [] [.overflow]
      else .exit (Config.startByte :: rest) [] := by
  simp [cutCandidate, find_one_none.2 h, clear]

theorem cutCandidate_end {body : List Byte} (tail : List Byte) (h : Config.endByte ∉ body) :
    cutCandidate (Config.startByte :: body ++ Config.endByte :: tail) =
      .again tail (Event.ofVerdict (validate (Config.startByte :: body ++ [Config.endByte]))) := by
  have hd : (body ++ Config.endByte :: tail).drop (body.length + 1) = tail := by
    simp [List.drop_append]
  have ht : (body ++ Config.endByte :: tail).take (body.length + 1) = body ++ [Config.endByte] := by
    simp [List.take_append]
  simp only [cutCandidate, find_one_some Config.startByte tail h, dropFront, slice_zero]
  simp only [List.cons_append, List.take_succ_cons, List.drop_succ_cons, hd, ht]

/-- The rules allow some outcome on every BUF. -/
theorem reassembles_total (buf : List Byte) : ∃ events buf', Reassembles buf events buf' := by
  induction hn : buf.length using Nat.strong_induction_on generalizing buf with
  | _ n ih =>
    rcases split_at_first Config.startByte buf with h | ⟨noise, rest, hnoise, rfl⟩
    · exact ⟨[], [], .noStart h⟩
    by_cases hs : (Config.startByte :: rest).length < Config.minFrame
    · exact ⟨_, _, .short hnoise hs⟩
    rcases split_at_first Config.endByte rest with h | ⟨body, tail, hbody, rfl⟩
    · by_cases ho : Config.ovfThreshold < (Config.startByte :: rest).length
      · exact ⟨_, _, .overflow hnoise h ho⟩
      · exact ⟨_, _, .hold hnoise h (Nat.le_of_not_lt hs) (Nat.le_of_not_lt ho)⟩
    · obtain ⟨events, buf', hr⟩ := ih tail.length (by simp at hn; omega) tail rfl
      have := Reassembles.cut (noise := noise) hnoise hbody (by simpa using Nat.le_of_not_lt hs) hr
      exact ⟨_, _, by simpa using this⟩

/-- The loop, given at least half the length and one more passes, computes what the rules allow (R85). -/
theorem loop_of_reassembles {buf : List Byte} {events : List Event} {buf' : List Byte}
    (h : Reassembles buf events buf') : ∀ fuel, buf.length / 2 + 1 ≤ fuel → loop fuel buf = (buf', events) := by
  induction h with
  | noStart h =>
    rintro (_ | fuel) hf
    · omega
    · simp [loop, loopPass_noStart h]
  | short hn hl =>
    rintro (_ | fuel) hf
    · omega
    · simp only [loop, loopPass_start _ hn, if_pos hl]
  | overflow hn he hl =>
    rintro (_ | fuel) hf
    · omega
    · have h11 : ¬ (Config.startByte :: _).length < Config.minFrame :=
        Nat.not_lt.2 (Nat.le_trans (by decide : Config.minFrame ≤ Config.ovfThreshold) (Nat.le_of_lt hl))
      simp only [loop, loopPass_start _ hn, if_neg h11, cutCandidate_noEnd he, if_pos hl]
  | hold hn he h1 h2 =>
    rintro (_ | fuel) hf
    · omega
    · simp only [loop, loopPass_start _ hn, if_neg (Nat.not_lt.2 h1), cutCandidate_noEnd he,
        if_neg (Nat.not_lt.2 h2)]
  | @cut noise body tail events buf' hn hb hl _ ih =>
    rintro (_ | fuel) hf
    · omega
    · have hfuel : tail.length / 2 + 1 ≤ fuel := by
        have : (noise ++ Config.startByte :: body ++ Config.endByte :: tail).length ≥ tail.length + 2 := by
          simp; omega
        omega
      have hc := cutCandidate_end tail hb
      have hp := loopPass_start (body ++ Config.endByte :: tail) hn
      simp only [List.append_assoc, List.cons_append] at hc hp hl ⊢
      simp only [loop, hp, if_neg (Nat.not_lt.2 hl), hc, ih fuel hfuel]

/-- The reassembler computes the rules, and nothing else: everything `reassemble` can do (R75 to R84). -/
theorem reassemble_iff {buf : List Byte} {events : List Event} {buf' : List Byte} :
    reassemble buf = (buf', events) ↔ Reassembles buf events buf' := by
  constructor
  · intro h
    obtain ⟨e, b, hr⟩ := reassembles_total buf
    have h2 := loop_of_reassembles hr _ (Nat.le_refl _)
    rw [← reassemble, h] at h2
    cases h2
    exact hr
  · exact fun h => loop_of_reassembles h _ (Nat.le_refl _)

/-- A quiescent BUF stays as it is, and nothing is emitted (R86, R88). -/
theorem reassembles_quiescent {buf : List Byte} (h : Quiescent buf) : Reassembles buf [] buf := by
  rcases h with rfl | ⟨hs, hl⟩ | ⟨hs, hl, hu, he⟩
  · exact .noStart (by simp)
  · cases buf with
    | nil => simp at hs
    | cons x xs =>
      simp only [List.head?_cons, Option.some.injEq] at hs
      subst hs
      exact .short (noise := []) (by simp) hl
  · cases buf with
    | nil => simp at hs
    | cons x xs =>
      simp only [List.head?_cons, Option.some.injEq] at hs
      subst hs
      exact .hold (noise := []) (by simp) he hl hu

/-- Every exit of the loop leaves a quiescent BUF (R86). -/
theorem quiescent_of_reassembles {buf : List Byte} {events : List Event} {buf' : List Byte}
    (h : Reassembles buf events buf') : Quiescent buf' := by
  induction h with
  | noStart _ => exact .inl rfl
  | short _ hl => exact .inr (.inl ⟨rfl, hl⟩)
  | overflow _ _ _ => exact .inl rfl
  | hold _ he h1 h2 => exact .inr (.inr ⟨rfl, h1, h2, he⟩)
  | cut _ _ _ _ ih => exact ih

/-- Noise in front makes no difference (R78). -/
theorem reassembles_noise {noise buf : List Byte} {events : List Event} {buf' : List Byte}
    (hn : Config.startByte ∉ noise) (h : Reassembles buf events buf') : Reassembles (noise ++ buf) events buf' := by
  cases h with
  | noStart h => exact .noStart (by simp [hn, h])
  | short h1 h2 => rw [← List.append_assoc]; exact .short (by simp [hn, h1]) h2
  | overflow h1 h2 h3 => rw [← List.append_assoc]; exact .overflow (by simp [hn, h1]) h2 h3
  | hold h1 h2 h3 h4 => rw [← List.append_assoc]; exact .hold (by simp [hn, h1]) h2 h3 h4
  | @cut noise2 _ _ _ _ h1 h2 h3 h4 =>
    have := Reassembles.cut (noise := noise ++ noise2) (by simp [hn, h1]) h2 h3 h4
    simpa using this

/-- Bytes and events are bounded by what was there: each event but an OVERFLOW consumes at least 2 bytes (R84, R89). -/
theorem reassembles_length {buf : List Byte} {events : List Event} {buf' : List Byte}
    (h : Reassembles buf events buf') : buf'.length + 2 * events.length ≤ buf.length := by
  induction h with
  | noStart _ => simp
  | short _ _ => simp
  | overflow _ _ hl => simp [Config.ovfThreshold] at hl ⊢; omega
  | hold _ _ _ _ => simp
  | cut _ _ _ _ ih => simp; omega

end Sys2Proof.Machine
end

