-- ==== Sys2Proof/Laws/State.lean ====
section
/-! SUPPORT. One lemma per field per update of State, so that no proof unfolds a record update. -/

namespace Sys2Proof.Machine

@[simp] theorem State.setBuf_buf (s : State) (b : List Byte) : (s.setBuf b).buf = b := rfl
@[simp] theorem State.setBuf_out (s : State) (b : List Byte) : (s.setBuf b).out = s.out := rfl
@[simp] theorem State.setBuf_refused (s : State) (b : List Byte) : (s.setBuf b).refused = s.refused := rfl
@[simp] theorem State.setBuf_maxFeed (s : State) (b : List Byte) : (s.setBuf b).maxFeed = s.maxFeed := rfl
@[simp] theorem State.setBuf_hostPort (s : State) (b : List Byte) : (s.setBuf b).hostPort = s.hostPort := rfl

@[simp] theorem State.emit_buf (s : State) (es : List Event) : (s.emit es).buf = s.buf := rfl
@[simp] theorem State.emit_out (s : State) (es : List Event) : (s.emit es).out = s.out ++ es := rfl
@[simp] theorem State.emit_refused (s : State) (es : List Event) : (s.emit es).refused = s.refused := rfl
@[simp] theorem State.emit_maxFeed (s : State) (es : List Event) : (s.emit es).maxFeed = s.maxFeed := rfl
@[simp] theorem State.emit_hostPort (s : State) (es : List Event) : (s.emit es).hostPort = s.hostPort := rfl

@[simp] theorem State.refuse_buf (s : State) : s.refuse.buf = s.buf := rfl
@[simp] theorem State.refuse_out (s : State) : s.refuse.out = s.out := rfl
@[simp] theorem State.refuse_refused (s : State) : s.refuse.refused = true := rfl
@[simp] theorem State.refuse_maxFeed (s : State) : s.refuse.maxFeed = s.maxFeed := rfl
@[simp] theorem State.refuse_hostPort (s : State) : s.refuse.hostPort = s.hostPort := rfl

@[simp] theorem State.setPort_buf (s : State) (p : List Byte) : (s.setPort p).buf = s.buf := rfl
@[simp] theorem State.setPort_out (s : State) (p : List Byte) : (s.setPort p).out = s.out := rfl
@[simp] theorem State.setPort_refused (s : State) (p : List Byte) : (s.setPort p).refused = s.refused := rfl
@[simp] theorem State.setPort_maxFeed (s : State) (p : List Byte) : (s.setPort p).maxFeed = s.maxFeed := rfl
@[simp] theorem State.setPort_hostPort (s : State) (p : List Byte) : (s.setPort p).hostPort = p := rfl

@[simp] theorem State.powerOn_buf (n : Nat) (p : List Byte) : (State.powerOn n p).buf = [] := rfl
@[simp] theorem State.powerOn_out (n : Nat) (p : List Byte) : (State.powerOn n p).out = [] := rfl
@[simp] theorem State.powerOn_refused (n : Nat) (p : List Byte) : (State.powerOn n p).refused = false := rfl
@[simp] theorem State.powerOn_maxFeed (n : Nat) (p : List Byte) : (State.powerOn n p).maxFeed = n := rfl
@[simp] theorem State.powerOn_hostPort (n : Nat) (p : List Byte) : (State.powerOn n p).hostPort = p := rfl

/-- The open parameter is within the bounds the spec gives it (R10). -/
theorem maxFeed_bounds : 1 ≤ Config.maxFeed ∧ Config.maxFeed ≤ Config.maxLen := by
  have h := Config.freeMaxFeed.isLt
  simp only [Config.maxFeed, Config.maxLen]
  omega

end Sys2Proof.Machine
end

