-- ==== Sys2Proof/Laws/HostOps.lean ====
section
/-! SUPPORT. What feeding does to State, that every instruction completes, and what a step can do. -/

namespace Sys2Proof.Machine

open Sys2Proof.Safety

/-- A chunk that MAX_FEED admits is appended and reassembled; nothing but BUF and OUT changes. -/
theorem feedChunk_accepted {chunk : List Byte} {s : State} (h : chunk.length ≤ s.maxFeed) :
    feedChunk chunk s =
      { s with buf := (reassemble (s.buf ++ chunk)).1, out := s.out ++ (reassemble (s.buf ++ chunk)).2 } := by
  simp [feedChunk, chunkTooLong, Nat.not_lt.2 h, append, State.setBuf, State.emit]

/-- A longer chunk sets REFUSED, and nothing else changes (R47). -/
theorem feedChunk_refused {chunk : List Byte} {s : State} (h : s.maxFeed < chunk.length) :
    feedChunk chunk s = { s with refused := true } := by
  simp [feedChunk, chunkTooLong, h, State.refuse]

/-- An accepted FEED, by the rules' relation. -/
theorem feedChunk_of_reassembles {chunk : List Byte} {s : State} {events : List Event} {buf' : List Byte}
    (h : chunk.length ≤ s.maxFeed) (hr : Reassembles (s.buf ++ chunk) events buf') :
    feedChunk chunk s = { s with buf := buf', out := s.out ++ events } := by
  rw [feedChunk_accepted h, reassemble_iff.2 hr]

theorem feedFrame_wf {m : Message} (s : State) (h : m.Wf) : feedFrame m s = feedChunk (encodeMessage m) s := by
  simp only [feedFrame, frameChunk?, if_pos h]

theorem feedFrame_not_wf {m : Message} (s : State) (h : ¬ m.Wf) : feedFrame m s = { s with refused := true } := by
  simp only [feedFrame, frameChunk?, if_neg h, State.refuse]

/-- A frame instruction feeds the frame of the message it carries. -/
theorem exec_frame {i : Instr} {m : Message} (s : State) (h : i.message? = some m) :
    exec i s = .next (feedFrame m s) := by
  cases i <;> simp [Instr.message?] at h <;> subst h <;> rfl

@[simp] theorem feedChunk_maxFeed (chunk : List Byte) (s : State) : (feedChunk chunk s).maxFeed = s.maxFeed := by
  simp only [feedChunk]; split <;> simp

@[simp] theorem feedChunk_hostPort (chunk : List Byte) (s : State) :
    (feedChunk chunk s).hostPort = s.hostPort := by
  simp only [feedChunk]; split <;> simp

/-- Everything an instruction can do to State: nothing, empty BUF, set REFUSED, or feed a chunk. -/
theorem exec_cases (i : Instr) (s : State) :
    exec i s = .next s ∨ exec i s = .next (s.setBuf []) ∨ exec i s = .next s.refuse ∨
      ∃ chunk, exec i s = .next (feedChunk chunk s) := by
  have frame (m : Message) : feedFrame m s = s.refuse ∨ ∃ chunk, feedFrame m s = feedChunk chunk s := by
    by_cases h : m.Wf
    · exact .inr ⟨_, feedFrame_wf s h⟩
    · exact .inl (feedFrame_not_wf s h)
  have lift {m : Message} (h : exec i s = .next (feedFrame m s)) :
      exec i s = .next s.refuse ∨ ∃ chunk, exec i s = .next (feedChunk chunk s) := by
    rcases frame m with hf | ⟨chunk, hf⟩
    · exact .inl (hf ▸ h)
    · exact .inr ⟨chunk, hf ▸ h⟩
  cases i with
  | nop => exact .inl rfl
  | feed chunk => exact .inr (.inr (.inr ⟨chunk, rfl⟩))
  | reset => exact .inr (.inl rfl)
  | reservedHostOp op => exact .inr (.inr (.inl rfl))
  | framePublish _ _ _ _ => exact .inr (.inr (lift (exec_frame s rfl)))
  | frameSubscribe _ _ _ _ => exact .inr (.inr (lift (exec_frame s rfl)))
  | frameAck _ _ _ _ => exact .inr (.inr (lift (exec_frame s rfl)))
  | framePing _ _ _ _ => exact .inr (.inr (lift (exec_frame s rfl)))
  | framePong _ _ _ _ => exact .inr (.inr (lift (exec_frame s rfl)))
  | frameUnnamedType _ _ _ _ _ => exact .inr (.inr (lift (exec_frame s rfl)))

/-- Every instruction completes. -/
theorem exec_next (i : Instr) (s : State) : ∃ t, exec i s = .next t := by
  rcases exec_cases i s with h | h | h | ⟨_, h⟩ <;> exact ⟨_, h⟩

theorem performAll_nil (s : State) :
    performAll [] s = if s.refused then .refused .afterRefusedOperation else .next s := rfl

/-- A run from a state that holds a refused operation does nothing (R92). -/
theorem performAll_refused (is : List Instr) {s : State} (h : s.refused = true) :
    performAll is s = .refused .afterRefusedOperation := by
  cases is <;> simp [performAll, h]

/-- A run's first operation, where nothing was refused before it. -/
theorem performAll_cons (is : List Instr) {i : Instr} {s t : State} (h : s.refused = false) (he : exec i s = .next t) :
    performAll (i :: is) s = performAll is t := by
  simp [performAll, h, he]

/-- The decoder of the host port rejects in two ways only. -/
theorem decodeHostOp_cases (s : List Byte) :
    decodeHostOp s = .reject .noOperation ∨ decodeHostOp s = .reject .truncatedFeed ∨
      ∃ i rest, decodeHostOp s = .instr i rest := by
  rcases s with _ | ⟨op, rest⟩
  · exact .inl rfl
  · simp only [decodeHostOp]
    split
    · exact .inr (.inr ⟨_, _, rfl⟩)
    split
    · rcases rest with _ | ⟨hi, _ | ⟨lo, data⟩⟩
      · exact .inr (.inl rfl)
      · exact .inr (.inl rfl)
      simp only [decodeFeed]
      split
      · exact .inr (.inl rfl)
      · exact .inr (.inr ⟨_, _, rfl⟩)
    split
    · exact .inr (.inr ⟨_, _, rfl⟩)
    · exact .inr (.inr ⟨_, _, rfl⟩)

/-- Everything a step can do: stop after a refused operation, stay idle, refuse a truncated FEED, or run the operation. -/
theorem step_cases (s : State) :
    (s.refused = true ∧ step s = .refused .afterRefusedOperation) ∨
    (s.refused = false ∧
      ((decodeHostOp s.hostPort = .reject .noOperation ∧ step s = .next s) ∨
       (decodeHostOp s.hostPort = .reject .truncatedFeed ∧ step s = .next (s.setPort []).refuse) ∨
       ∃ i rest, decodeHostOp s.hostPort = .instr i rest ∧ step s = exec i (s.setPort rest))) := by
  cases hr : s.refused
  · refine .inr ⟨rfl, ?_⟩
    rcases decodeHostOp_cases s.hostPort with h | h | ⟨i, rest, h⟩
    · exact .inl ⟨h, by simp [step, performNext, hr, h]⟩
    · exact .inr (.inl ⟨h, by simp [step, performNext, hr, h]⟩)
    · exact .inr (.inr ⟨i, rest, h, by simp [step, performNext, hr, h]⟩)
  · exact .inl ⟨rfl, by simp [step, performNext, hr]⟩

end Sys2Proof.Machine
end

