-- ==== Sys2Proof/Laws/PerInstr.lean ====
section
/-! SUPPORT. Statements about every instruction as syntax, one lemma per constructor. -/

namespace Sys2Proof.Laws

open Sys2Proof.Machine

/-- How many bytes an instruction takes: 1, or 3 + LEN for FEED (R46), or `11 + tl + pl` for a frame (R37). -/
def EncodedSize.Statement (i : Instr) : Prop :=
  (encode i).length =
    match i with
    | .nop => 1
    | .feed chunk => 3 + chunk.length
    | .reset => 1
    | .reservedHostOp _ => 1
    | .framePublish _ _ topic payload => 11 + topic.length + payload.length
    | .frameSubscribe _ _ topic payload => 11 + topic.length + payload.length
    | .frameAck _ _ topic payload => 11 + topic.length + payload.length
    | .framePing _ _ topic payload => 11 + topic.length + payload.length
    | .framePong _ _ topic payload => 11 + topic.length + payload.length
    | .frameUnnamedType _ _ _ topic payload => 11 + topic.length + payload.length

theorem EncodedSize.nop : EncodedSize.Statement .nop := rfl

theorem EncodedSize.feed (chunk : List Byte) : EncodedSize.Statement (.feed chunk) := by
  simp [EncodedSize.Statement, encode]; omega

theorem EncodedSize.reset : EncodedSize.Statement .reset := rfl

theorem EncodedSize.reservedHostOp (op : Byte) : EncodedSize.Statement (.reservedHostOp op) := rfl

theorem EncodedSize.framePublish (id : Half) (qos : Byte) (topic payload : List Byte) :
    EncodedSize.Statement (.framePublish id qos topic payload) := encodeMessage_length _

theorem EncodedSize.frameSubscribe (id : Half) (qos : Byte) (topic payload : List Byte) :
    EncodedSize.Statement (.frameSubscribe id qos topic payload) := encodeMessage_length _

theorem EncodedSize.frameAck (id : Half) (qos : Byte) (topic payload : List Byte) :
    EncodedSize.Statement (.frameAck id qos topic payload) := encodeMessage_length _

theorem EncodedSize.framePing (id : Half) (qos : Byte) (topic payload : List Byte) :
    EncodedSize.Statement (.framePing id qos topic payload) := encodeMessage_length _

theorem EncodedSize.framePong (id : Half) (qos : Byte) (topic payload : List Byte) :
    EncodedSize.Statement (.framePong id qos topic payload) := encodeMessage_length _

theorem EncodedSize.frameUnnamedType (type : Byte) (id : Half) (qos : Byte) (topic payload : List Byte) :
    EncodedSize.Statement (.frameUnnamedType type id qos topic payload) := encodeMessage_length _

end Sys2Proof.Laws
end

