-- ==== Sys2Proof/Tests/Slice0.lean ====
section
/-! SUPPORT. Tests on the spec's own vectors (95_test_vectors.md) and witnesses that the statements' hypotheses can be met. -/

namespace Sys2Proof.Tests

open Sys2Proof.Machine Sys2Proof.Safety

/-- The next state of an outcome, to be compared. -/
def nextOf : Host.Outcome State Fault Refusal → Option State
  | .next s => some s
  | .fault _ => none
  | .refused _ => none

/-- A state with the given BUF, nothing emitted and nothing issued. -/
def withBuf (buf : List Byte) : State := { State.powerOn 600 [] with buf := buf }

/-- What an instruction leaves from that state: OUT, BUF, REFUSED (R92). -/
def observed (i : Instr) (buf : List Byte) : Option (List Event × List Byte × Bool) :=
  (nextOf (exec i (withBuf buf))).map State.observe

/-- The Ack frame of V-F1. -/
def ackBytes : List Byte := [0x7E#8, 0x03#8, 0x00#8, 0x01#8, 0x00#8, 0x00#8, 0x00#8, 0x00#8, 0x83#8, 0x1D#8, 0x7F#8]

/-- Its message. -/
def ack : Message := ⟨0x03#8, 0x0001#16, 0x00#8, [], []⟩

/-- The message of V-R5, whose id 0x007F puts an END inside the frame. -/
def cutMessage : Message := ⟨0x01#8, 0x007F#16, 0x00#8, [], []⟩

/-- The 514-byte frame's message of V-R14. -/
def longMessage : Message := ⟨0x01#8, 0x0001#16, 0x00#8, [], List.replicate 503 0x00#8⟩

/-- "sensor/temperature" (W2). -/
def sensorTopic : List Byte :=
  [0x73#8, 0x65#8, 0x6E#8, 0x73#8, 0x6F#8, 0x72#8, 0x2F#8, 0x74#8, 0x65#8, 0x6D#8, 0x70#8, 0x65#8, 0x72#8, 0x61#8,
    0x74#8, 0x75#8, 0x72#8, 0x65#8]

/-! Well-formedness: each check refuses a term that breaks it. -/

theorem test_wf_feed_over_len (chunk : List Byte) (h : chunk.length = 65536) : (Instr.feed chunk).wf = false := by
  simp [Instr.wf, h, Config.maxLen]

theorem test_wf_reserved_op_names_an_operation : (Instr.reservedHostOp 0x02#8).wf = false := by decide

theorem test_wf_topic_over_255 : (Instr.framePing 0 0 (List.replicate 256 0x00#8) []).wf = false := by
  decide +kernel

theorem test_wf_payload_over_65535 (payload : List Byte) (h : payload.length = 65536) :
    (Instr.framePong 0 0 [] payload).wf = false := by
  simp [Instr.wf, h, Config.maxPayload]

theorem test_wf_unnamed_type_is_named : (Instr.frameUnnamedType 0x05#8 0 0 [] []).wf = false := by decide

/-! Decoding: V-H1 to V-H7, the opcode table's words, and the frames V-F1, V-F3, V-F5 and W2. -/

theorem test_decode_nop : decodeHostOp [0x00#8] = .instr .nop [] := by decide

theorem test_decode_reset : decodeHostOp [0x02#8] = .instr .reset [] := by decide

theorem test_decode_feed :
    decodeHostOp ([0x01#8, 0x00#8, 0x0B#8] ++ ackBytes ++ [0x02#8]) = .instr (.feed ackBytes) [0x02#8] := by
  decide +kernel

theorem test_decode_reserved : decodeHostOp [0x03#8, 0xFF#8] = .instr (.reservedHostOp 0x03#8) [0xFF#8] := by decide

theorem test_decode_truncated_feed : decodeHostOp [0x01#8, 0x00#8, 0x05#8, 0x7E#8, 0x03#8] = .reject .truncatedFeed := by
  decide

theorem test_decode_feed_without_len : decodeHostOp [0x01#8, 0x00#8] = .reject .truncatedFeed := by decide

theorem test_decode_nothing_issued : decodeHostOp [] = .reject .noOperation := by decide

theorem test_table_words :
    decodeTableWord 8 0x00 = some .nop ∧ decodeTableWord 8 0x01 = some (.feed []) ∧
    decodeTableWord 8 0x02 = some .reset ∧ decodeTableWord 8 0xFF = some (.reservedHostOp 0xFF#8) := by decide

theorem test_decode_publish :
    decodeFrame ([0x7E#8, 0x01#8, 0x00#8, 0x01#8, 0x01#8, 0x12#8] ++ sensorTopic ++
      [0x00#8, 0x03#8, 0x19#8, 0x1E#8, 0x1C#8, 0xC0#8, 0x31#8, 0x7F#8]) =
      .instr (.framePublish 0x0001#16 0x01#8 sensorTopic [0x19#8, 0x1E#8, 0x1C#8]) [] := by decide +kernel

theorem test_decode_ack : decodeFrame ackBytes = .instr (.frameAck 0x0001#16 0x00#8 [] []) [] := by decide +kernel

theorem test_decode_ping :
    decodeFrame [0x7E#8, 0x04#8, 0x12#8, 0x34#8, 0x00#8, 0x00#8, 0x00#8, 0x00#8, 0x24#8, 0x24#8, 0x7F#8] =
      .instr (.framePing 0x1234#16 0x00#8 [] []) [] := by decide +kernel

theorem test_decode_unnamed_type :
    decodeFrame [0x7E#8, 0x09#8, 0xBE#8, 0xEF#8, 0x02#8, 0x01#8, 0x61#8, 0x00#8, 0x01#8, 0x7E#8, 0xCF#8, 0xF7#8,
      0x7F#8] = .instr (.frameUnnamedType 0x09#8 0xBEEF#16 0x02#8 [0x61#8] [0x7E#8]) [] := by decide +kernel

/-- Subscribe and Pong have no vector of their own: the type byte of a decoded message selects the row (R39). -/
theorem test_type_selects_row :
    Instr.ofMessage ⟨0x02#8, 0x0001#16, 0x00#8, [], []⟩ = .frameSubscribe 0x0001#16 0x00#8 [] [] ∧
    Instr.ofMessage ⟨0x05#8, 0x0001#16, 0x00#8, [], []⟩ = .framePong 0x0001#16 0x00#8 [] [] := by decide

/-! The CRC and the validator: V-C1 to V-C6, V-C9, and one vector per kind of error. -/

theorem test_crc_vectors :
    crc16 [0x31#8, 0x32#8, 0x33#8, 0x34#8, 0x35#8, 0x36#8, 0x37#8, 0x38#8, 0x39#8] = 0x29B1#16 ∧
    crc16 [] = 0xFFFF#16 ∧ crc16 [0x00#8] = 0xE1F0#16 ∧ crc16 [0x01#8] = 0xF1D1#16 ∧ crc16 [0xFF#8] = 0xFF00#16 ∧
    crc16 [0x7E#8] = 0x7EA9#16 := by decide +kernel

/-- V-F6, V-F8, V-F9, V-F10, V-F11, V-F12, V-F13, V-F14, V-F15. -/
theorem test_validate_errors :
    validate [0x7E#8, 0x02#8, 0x00#8, 0x01#8, 0x00#8, 0x00#8, 0x00#8, 0x00#8, 0x83#8, 0x1D#8, 0x7F#8] = .err .crcMismatch ∧
    validate [0x7E#8, 0x03#8, 0x00#8, 0x01#8, 0x00#8, 0x05#8, 0x00#8, 0x00#8, 0x83#8, 0x1D#8, 0x7F#8] = .err .lenOverrun ∧
    validate [0x7E#8, 0x03#8, 0x00#8, 0x01#8, 0x00#8, 0x00#8, 0x00#8, 0x01#8, 0x83#8, 0x1D#8, 0x7F#8] = .err .lenOverrun ∧
    validate [0x7E#8, 0x03#8, 0x00#8, 0x01#8, 0x00#8, 0x00#8, 0xFF#8, 0xFF#8, 0x83#8, 0x1D#8, 0x7F#8] = .err .lenOverrun ∧
    validate [0x7E#8, 0x01#8, 0x7F#8] = .err .tooShort ∧ validate [] = .err .tooShort ∧
    validate [0x00#8, 0x03#8, 0x00#8, 0x01#8, 0x00#8, 0x00#8, 0x00#8, 0x00#8, 0x83#8, 0x1D#8, 0x7F#8] = .err .badStart ∧
    validate [0x7E#8, 0x03#8, 0x00#8, 0x01#8, 0x00#8, 0x00#8, 0x00#8, 0x00#8, 0x83#8, 0x1D#8, 0x00#8, 0x00#8, 0x7F#8] =
      .err .badEnd ∧
    validate (ackBytes ++ [0x00#8]) = .err .badEnd := by decide +kernel

/-! One step of each instruction: expected results from the vectors named. -/

/-- V-R20. -/
theorem test_nop : observed .nop [0x7E#8, 0x7F#8] = some ([], [0x7E#8, 0x7F#8], false) := by decide

/-- V-R8, its second FEED: the pending START swallows the frame. -/
theorem test_feed_swallowed :
    observed (.feed ackBytes) [0x7E#8, 0x01#8] = some ([.frameErr .crcMismatch], [], false) := by decide +kernel

/-- V-R2, its first FEED: two frames and a partial one. -/
theorem test_feed_two_frames :
    observed (.feed (ackBytes ++ [0x7E#8, 0x04#8, 0x12#8, 0x34#8, 0x00#8, 0x00#8, 0x00#8, 0x00#8, 0x24#8, 0x24#8, 0x7F#8] ++
      [0x7E#8, 0x03#8, 0x00#8, 0x01#8, 0x00#8])) [] =
      some ([.frameOk ack, .frameOk ⟨0x04#8, 0x1234#16, 0x00#8, [], []⟩], [0x7E#8, 0x03#8, 0x00#8, 0x01#8, 0x00#8], false) := by
  decide +kernel

/-- V-R12, its RESET. -/
theorem test_reset :
    observed .reset [0x7E#8, 0x03#8, 0x00#8, 0x01#8, 0x00#8, 0x00#8] = some ([], [], false) := by decide

/-- V-H5. -/
theorem test_reserved_host_op : observed (.reservedHostOp 0x03#8) [0x7E#8] = some ([], [0x7E#8], true) := by decide

/-- W2. -/
theorem test_frame_publish :
    observed (.framePublish 0x0001#16 Config.qosAtLeastOnce sensorTopic [0x19#8, 0x1E#8, 0x1C#8]) [] =
      some ([.frameOk ⟨0x01#8, 0x0001#16, 0x01#8, sensorTopic, [0x19#8, 0x1E#8, 0x1C#8]⟩], [], false) := by
  decide +kernel

/-- V-R5: an END in MSG_ID. -/
theorem test_frame_publish_cut :
    observed (.framePublish 0x007F#16 0x00#8 [] []) [] = some ([.frameErr .tooShort], [], false) := by decide +kernel

/-- R39, R65. -/
theorem test_frame_subscribe :
    observed (.frameSubscribe 0x0001#16 Config.qosAtMostOnce [0x61#8] []) [] =
      some ([.frameOk ⟨0x02#8, 0x0001#16, 0x00#8, [0x61#8], []⟩], [], false) := by decide +kernel

/-- V-R1. -/
theorem test_frame_ack : observed (.frameAck 0x0001#16 0x00#8 [] []) [] = some ([.frameOk ack], [], false) := by
  decide +kernel

/-- V-R6: an END in the CRC of the Ack with id 165. -/
theorem test_frame_ack_cut_by_crc :
    observed (.frameAck 0x00A5#16 0x00#8 [] []) [] = some ([.frameErr .tooShort], [], false) := by decide +kernel

/-- V-F3. -/
theorem test_frame_ping :
    encode (.framePing 0x1234#16 0x00#8 [] []) =
      [0x7E#8, 0x04#8, 0x12#8, 0x34#8, 0x00#8, 0x00#8, 0x00#8, 0x00#8, 0x24#8, 0x24#8, 0x7F#8] := by decide +kernel

theorem test_frame_ping_delivered :
    observed (.framePing 0x1234#16 0x00#8 [] []) [] = some ([.frameOk ⟨0x04#8, 0x1234#16, 0x00#8, [], []⟩], [], false) := by
  decide +kernel

/-- R39, R65. -/
theorem test_frame_pong :
    observed (.framePong 0x0001#16 0x00#8 [] [0x7E#8]) [] =
      some ([.frameOk ⟨0x05#8, 0x0001#16, 0x00#8, [], [0x7E#8]⟩], [], false) := by decide +kernel

/-- V-F5: an unnamed TYPE and QOS. -/
theorem test_frame_unnamed_type :
    observed (.frameUnnamedType 0x09#8 0xBEEF#16 0x02#8 [0x61#8] [0x7E#8]) [] =
      some ([.frameOk ⟨0x09#8, 0xBEEF#16, 0x02#8, [0x61#8], [0x7E#8]⟩], [], false) := by decide +kernel

/-- From reset a placed word is the first instruction run, whatever MAX_FEED is. -/
theorem test_first_step_after_reset :
    step (State.reset.withFetchWord 8 0x01) = exec (.feed []) State.reset ∧
    step (State.reset.withFetchWord 8 0x03) = exec (.reservedHostOp 0x03#8) State.reset := ⟨rfl, rfl⟩

/-- R49's example lines. -/
theorem test_assembler :
    (parseProgram [['R', 'E', 'S', 'E', 'T'], ['F', 'E', 'E', 'D', ' ', ' ', ';', ' ', 'e'],
      ['F', 'E', 'E', 'D', ' ', '7', 'E', ' ', '0', '3', ' ', ';', 'x']]).bind (assemble 600) =
      some [0x02#8, 0x01#8, 0x00#8, 0x00#8, 0x01#8, 0x00#8, 0x02#8, 0x7E#8, 0x03#8] := by decide +kernel

/-! Witnesses: for each statement with hypotheses, a state and operands that meet them all, each clause at a boundary of its
range. -/

theorem test_witness_stepRunsDecoded :
    (State.powerOn 600 [0x02#8]).refused = false ∧
    decodeHostOp (State.powerOn 600 [0x02#8]).hostPort = .instr .reset [] := by decide

theorem test_witness_stepIdlesOrStops :
    ((withBuf []).refused = false ∧ (withBuf []).hostPort = []) ∧ (withBuf []).refuse.refused = true := by decide

theorem test_witness_quiescent :
    Quiescent (withBuf []).buf ∧ Quiescent (withBuf [0x7E#8, 0x7F#8]).buf ∧
    StateInv (withBuf [0x7E#8, 0x7F#8]) := by decide

/-- Q2 at 10 bytes, Q3 at 11 and 512; 513 is no quiescent form. -/
theorem test_quiescent_boundaries :
    Quiescent (0x7E#8 :: List.replicate 9 0x7F#8) ∧ ¬ Quiescent (0x7E#8 :: List.replicate 10 0x7F#8) ∧
    Quiescent (0x7E#8 :: List.replicate 10 0x00#8) ∧ Quiescent (0x7E#8 :: List.replicate 511 0x00#8) ∧
    ¬ Quiescent (0x7E#8 :: List.replicate 512 0x00#8) := by decide +kernel

theorem test_witness_resetLosesPartialFrame :
    [0x00#8, 0x7F#8].length ≤ (withBuf [0x7E#8]).maxFeed ∧ Config.startByte ∉ [0x00#8, 0x7F#8] := by decide

/-- The over-long chunk by one byte, a FEED without its LEN field, and one that lacks its last data byte. -/
theorem test_witness_refusedOperations :
    (State.powerOn 1 []).maxFeed < [0x00#8, 0x00#8].length ∧
    ((State.powerOn 1 [0x01#8, 0x00#8]).refused = false ∧ [0x00#8].length < 2) ∧
    (State.powerOn 1 [0x01#8, 0x01#8, 0x00#8]).hostPort = 0x01#8 :: 0x01#8 :: 0x00#8 :: [] ∧
    ([] : List Byte).length < 256 * (0x01#8).toNat + (0x00#8).toNat := by decide

theorem test_witness_feed_no_start :
    [0x01#8, 0x02#8, 0x03#8, 0x7F#8].length ≤ (withBuf []).maxFeed ∧
    Config.startByte ∉ (withBuf []).buf ++ [0x01#8, 0x02#8, 0x03#8, 0x7F#8] := by decide

/-- Noise before START, and exactly 10 bytes from it on, an END among them. -/
theorem test_witness_feed_short :
    (0x55#8 :: Config.startByte :: List.replicate 9 0x7F#8).length ≤ (withBuf []).maxFeed ∧
    Config.startByte ∉ [0x55#8] ∧
    (withBuf []).buf ++ (0x55#8 :: Config.startByte :: List.replicate 9 0x7F#8) =
      [0x55#8] ++ Config.startByte :: List.replicate 9 0x7F#8 ∧
    (Config.startByte :: List.replicate 9 0x7F#8).length < 11 := by decide

/-- 513 bytes without an END overflow (V-R13). -/
theorem test_witness_feed_overflow :
    [0x00#8].length ≤ (withBuf (Config.startByte :: List.replicate 511 0x00#8)).maxFeed ∧
    Config.startByte ∉ ([] : List Byte) ∧
    (withBuf (Config.startByte :: List.replicate 511 0x00#8)).buf ++ [0x00#8] =
      [] ++ Config.startByte :: List.replicate 512 0x00#8 ∧
    Config.endByte ∉ List.replicate 512 0x00#8 ∧
    512 < (Config.startByte :: List.replicate 512 0x00#8).length := by decide +kernel

/-- 512 are kept (V-R11). -/
theorem test_witness_feed_within_threshold :
    (Config.startByte :: List.replicate 511 0x00#8).length ≤ (withBuf []).maxFeed ∧
    Config.endByte ∉ List.replicate 511 0x00#8 ∧
    (Config.startByte :: List.replicate 511 0x00#8).length ≤ 512 := by decide +kernel

/-- A candidate of two bytes in a BUF of exactly 11 (V-R9 is one of three). -/
theorem test_witness_feed_cut :
    (0x7E#8 :: 0x7F#8 :: List.replicate 9 0x00#8).length ≤ (withBuf []).maxFeed ∧
    Config.startByte ∉ ([] : List Byte) ∧ Config.endByte ∉ ([] : List Byte) ∧
    (withBuf []).buf ++ (0x7E#8 :: 0x7F#8 :: List.replicate 9 0x00#8) =
      [] ++ Config.startByte :: [] ++ Config.endByte :: List.replicate 9 0x00#8 ∧
    11 ≤ (Config.startByte :: [] ++ Config.endByte :: List.replicate 9 0x00#8).length := by decide

/-- An accepted chunk at the bound, for FeedObeysReassemblyRules, FeedLeavesQuiescentBuffer, FeedFitsBufferCapacity and
FeedEventBound; the last one's clauses on an OVERFLOW and on a BUF of 512 bytes. -/
theorem test_witness_feed_accepted :
    (List.replicate 600 0x00#8).length ≤ (withBuf []).maxFeed ∧
    [Event.overflow] = [] ++ Event.overflow :: [] ∧
    (withBuf (Config.startByte :: List.replicate 511 0x00#8)).buf.length ≤ 512 := by decide +kernel

theorem test_witness_stepKeeps :
    StateInv { withBuf [0x7E#8] with hostPort := [0x02#8] } ∧ OutSound { withBuf [0x7E#8] with hostPort := [0x02#8] } ∧
    step { withBuf [0x7E#8] with hostPort := [0x02#8] } = .next (withBuf []) ∧
    (withBuf []).buf ≠ (withBuf [0x7E#8]).buf :=
  ⟨by decide, by simp [OutSound, withBuf], rfl, by decide⟩

theorem test_witness_feedDependsOnBufferOnly :
    (withBuf [0x7E#8]).buf = (withBuf [0x7E#8]).refuse.buf ∧
    (withBuf [0x7E#8]).maxFeed = (withBuf [0x7E#8]).refuse.maxFeed := by decide

theorem test_witness_loopFuel : ackBytes.length / 2 + 1 ≤ 6 := by decide

theorem test_witness_frameIsFeed :
    (Instr.framePing 0x1234#16 0x00#8 [] []).format = .frameType ∧ (Instr.framePing 0x1234#16 0x00#8 [] []).Wf ∧
    (Instr.frameUnnamedType 0x06#8 0x1234#16 0x00#8 [] []).Wf ∧
    (Instr.frameUnnamedType 0x00#8 0x1234#16 0x00#8 [] []).Wf := by decide

/-- The hypotheses under which a frame is delivered, with MAX_FEED exactly its length. -/
theorem test_witness_frameIsDelivered :
    ack.Wf ∧ CleanInside ack ∧ 11 + ack.topic.length + ack.payload.length ≤ (State.powerOn 11 []).maxFeed ∧
    Config.startByte ∉ (State.powerOn 11 []).buf := by decide +kernel

/-- MAX_FEED one too small, and a topic one byte too long. -/
theorem test_witness_frameTooLong :
    (Instr.frameAck 0x0001#16 0x00#8 [] []).message? = some ack ∧
    (State.powerOn 10 []).maxFeed < 11 + ack.topic.length + ack.payload.length ∧
    ¬ Message.Wf ⟨0x03#8, 0x0001#16, 0x00#8, List.replicate 256 0x00#8, []⟩ := by decide +kernel

/-- A pass that exits and one that goes on, each with the fewest bytes its clause speaks of. -/
theorem test_witness_loopPass :
    loopPass [] = .exit [] [] ∧
    loopPass (0x7E#8 :: 0x7F#8 :: List.replicate 9 0x00#8) = .again (List.replicate 9 0x00#8) (.frameErr .tooShort) := by
  decide

/-- A run before an operation that is refused, and one that ends in it (V-H5): the latter is not successful (R16). -/
theorem test_witness_successfulRun :
    performAll [.nop] (withBuf []) = .next (withBuf []) ∧ RefusedHere (.reservedHostOp 0x03#8) (withBuf []) ∧
    nextOf (performAll [.nop, .reservedHostOp 0x03#8] (withBuf [])) = none ∧
    nextOf (performAll [.reservedHostOp 0x03#8, .nop] (withBuf [])) = none :=
  ⟨rfl, trivial, rfl, rfl⟩

/-- Well-formed operations at the bounds of their operands. -/
theorem test_witness_encodable :
    (Instr.feed []).Wf ∧ (Instr.reservedHostOp 0x03#8).Wf ∧ (Instr.reservedHostOp 0xFF#8).Wf ∧
    (Instr.feed []).format = .hostOp := by decide

theorem test_witness_encodable_longest (data topic : List Byte) (h : data.length = 65535) (ht : topic.length = 255) :
    (Instr.feed data).Wf ∧ (Instr.framePing 0 0 topic data).Wf :=
  ⟨Nat.le_of_eq h, Nat.le_of_eq ht, Nat.le_of_eq h⟩

theorem test_witness_fieldsAreBigEndian :
    [0x12#8, 0x34#8][0]? = some 0x12#8 ∧ [0x12#8, 0x34#8][0 + 1]? = some 0x34#8 := by decide

/-- A message without and one with an inner END, an empty BUF and room for the frame. -/
theorem test_witness_validateInvertsEncode :
    ack.Wf ∧ CleanInside ack ∧ cutMessage.Wf ∧ ¬ CleanInside cutMessage ∧ (withBuf []).buf = [] ∧
    Config.startByte ∉ (withBuf []).buf ∧ (encodeMessage cutMessage).length ≤ (withBuf []).maxFeed := by decide +kernel

theorem test_witness_validateAccepts : validate ackBytes = .ok ack := by decide +kernel

theorem test_witness_startThenLength :
    (0x7F#8 : Byte) ≠ Config.startByte ∧ (Config.startByte :: List.replicate 9 0x00#8).length < 11 := by decide

/-- TOPIC_LEN one too large for 11 bytes; PAYLOAD_LEN one too large (V-F9). -/
theorem test_witness_overrun :
    11 ≤ (Config.startByte :: 0x03#8 :: 0x00#8 :: 0x01#8 :: 0x00#8 :: 0x01#8 :: List.replicate 5 0x00#8).length ∧
    (Config.startByte :: 0x03#8 :: 0x00#8 :: 0x01#8 :: 0x00#8 :: 0x01#8 :: List.replicate 5 0x00#8).length <
      11 + (0x01#8).toNat ∧
    [0x00#8, 0x01#8, 0x83#8, 0x1D#8, 0x7F#8] = [] ++ 0x00#8 :: 0x01#8 :: [0x83#8, 0x1D#8, 0x7F#8] ∧
    ([] : List Byte).length = (0x00#8).toNat ∧ 3 ≤ [0x83#8, 0x1D#8, 0x7F#8].length ∧
    [0x83#8, 0x1D#8, 0x7F#8].length < 3 + 256 * (0x00#8).toNat + (0x01#8).toNat := by decide

theorem test_witness_wholeFrame :
    [0x61#8].length = (0x01#8).toNat ∧ [0x7E#8].length = 256 * (0x00#8).toNat + (0x01#8).toNat := by decide

theorem test_witness_candidate : Config.endByte ∉ [0x01#8, 0x02#8] := by decide

theorem test_witness_crcBit : 0 < [0x00#8].length ∧ 7 < 8 := by decide

theorem test_witness_crcAffine : [0x00#8].length = [0x01#8].length ∧ [0x01#8].length = [0x02#8].length := by decide

/-- The message whose TOPIC_LEN flip moves PAYLOAD_LEN to bytes that give the same total (R72's third case). -/
def shiftedMessage : Message := ⟨0x00#8, 0x0000#16, 0x00#8, [], List.replicate 257 0x00#8⟩

/-- The four cases of R72: outside the length fields; `ne'` above, equal to and below the frame's length. -/
theorem test_witness_bitFlip :
    ack.Wf ∧ 1 ≤ 1 ∧ 7 ≤ (encodeMessage ack).length - 4 ∧
    (encodeMessage ack).length < expectedLength (flipBit (encodeMessage ack) 5 0) ∧
    shiftedMessage.Wf ∧
    expectedLength (flipBit (encodeMessage shiftedMessage) 5 0) = (encodeMessage shiftedMessage).length ∧
    expectedLength (flipBit (encodeMessage shiftedMessage) 7 0) < (encodeMessage shiftedMessage).length := by
  decide +kernel

theorem test_witness_innerEnd : ¬ CleanInside cutMessage := by decide +kernel

theorem test_witness_pendingStart :
    ack.Wf ∧ CleanInside ack ∧ (withBuf [0x7E#8, 0x01#8]).buf = Config.startByte :: [0x01#8] ∧
    Config.endByte ∉ [0x01#8] ∧ (encodeMessage ack).length ≤ (withBuf [0x7E#8, 0x01#8]).maxFeed := by decide +kernel

/-- The Ack frame in two chunks and in one (V-R3, V-R1). -/
theorem test_witness_chunks :
    nextOf (feedAll [ackBytes.take 6, ackBytes.drop 6] (withBuf [])) = some ((withBuf []).emit [.frameOk ack]) ∧
    nextOf (feedAll [ackBytes] (withBuf [])) = some ((withBuf []).emit [.frameOk ack]) ∧
    [ackBytes.take 6, ackBytes.drop 6].flatten = ackBytes ∧
    Event.overflow ∉ ((withBuf []).emit [.frameOk ack]).out.drop (withBuf []).out.length := by decide +kernel

/-- The bytes of V-R14's frame between its START and its END. -/
def longInner : List Byte :=
  [0x01#8, 0x00#8, 0x01#8, 0x00#8, 0x00#8, 0x01#8, 0xF7#8] ++ List.replicate 503 0x00#8 ++ [0xA7#8, 0x79#8]

set_option maxRecDepth 20000 in
theorem test_long_crc : crc16 (frameBody longMessage) = 0xA779#16 := by decide +kernel

theorem test_long_bytes : encodeMessage longMessage = Config.startByte :: longInner ++ [Config.endByte] := by
  rw [encodeMessage, test_long_crc]
  decide +kernel

theorem test_long_validates : validate (Config.startByte :: longInner ++ [Config.endByte]) = .ok longMessage := by
  have crc : CrcMatches (Config.startByte :: longInner ++ [Config.endByte]) := by
    have span : slice (Config.startByte :: longInner ++ [Config.endByte]) 1
        (expectedLength (Config.startByte :: longInner ++ [Config.endByte]) - 4) = frameBody longMessage := by
      decide +kernel
    rw [CrcMatches, span, test_long_crc]
    decide +kernel
  rw [validate_long (by decide) (by decide +kernel), if_neg (by decide +kernel), if_neg (not_not.2 crc),
    if_neg (by decide +kernel)]
  decide +kernel

/-- V-R14 (a): the 514-byte frame in one FEED. -/
theorem test_witness_longFrame :
    longMessage.Wf ∧ CleanInside longMessage ∧ 514 ≤ (encodeMessage longMessage).length ∧
    feedAll [encodeMessage longMessage] (withBuf []) = .next ((withBuf []).emit [.frameOk longMessage]) := by
  refine ⟨by decide +kernel, ?_, by rw [encodeMessage_length]; decide +kernel, ?_⟩
  · rw [CleanInside, innerBytes, test_long_bytes]
    decide +kernel
  · have cut := Reassembles.cut (noise := []) (body := longInner) (tail := []) (by decide) (by decide +kernel)
      (by decide +kernel) (.noStart (by decide))
    rw [test_long_validates] at cut
    have len : (encodeMessage longMessage).length ≤ (withBuf []).maxFeed := by
      rw [encodeMessage_length]; decide +kernel
    have fed := feedChunk_of_reassembles (s := withBuf []) len (by rw [test_long_bytes]; exact cut)
    have run : exec (.feed (encodeMessage longMessage)) (withBuf []) = .next ((withBuf []).emit [.frameOk longMessage]) := by
      rw [exec, execFeed, fed]
      rfl
    rw [feedAll, List.map_singleton, performAll_cons [] rfl run]
    rfl

/-- Both clauses of ByteAtATime: 11 bytes, and 514. -/
theorem test_witness_byteAtATime :
    (encodeMessage ack).length ≤ 513 ∧ 514 ≤ (encodeMessage longMessage).length ∧ 1 ≤ (withBuf []).maxFeed ∧
    (withBuf []).refused = false := by
  decide +kernel

theorem test_witness_hostProgram :
    (∀ i ∈ [Instr.reset, Instr.nop], i.format = .hostOp ∧ i.wf = true) ∧
    (State.powerOn 600 [0x02#8, 0x00#8]).hostPort = encodeProgram [.reset, .nop] ++ [] ∧
    nextOf (performAll [.reset, .nop] (State.powerOn 600 [0x02#8, 0x00#8])) =
      some (State.powerOn 600 [0x02#8, 0x00#8]) := by decide

theorem test_witness_assembled :
    FeedBound 600 ∧ assemble 600 [.nop, .feed [0x7E#8]] = some [0x00#8, 0x01#8, 0x00#8, 0x01#8, 0x7E#8] := by decide

end Sys2Proof.Tests
end

section
/-! The statements of 10_state.md: what a step runs, when REFUSED is set, which operations change BUF and OUT, and how long
BUF can grow within a FEED. -/

namespace Sys2Proof.Machine

open Sys2Proof.Safety

/-! What a step runs. -/

/-- The step of a port that begins with an operation (R26, R46). -/
theorem step_of_decode {s : State} {i : Instr} {rest : List Byte} (hr : s.refused = false)
    (hd : decodeHostOp s.hostPort = .instr i rest) : step s = exec i (s.setPort rest) := by
  simp [step, performNext, hr, hd]

/-- Settles O3: with nothing refused, the step's branch is the one of the decoded operation. -/
theorem stepRunsDecodedOperation : Obligations.StepRunsDecodedOperation :=
  fun _ _ _ hr hd => step_of_decode hr hd

/-! When REFUSED is set. -/

/-- An instruction is one of the four host operations or the frame of a message. -/
theorem instr_cases (i : Instr) :
    i = .nop ∨ (∃ chunk, i = .feed chunk) ∨ i = .reset ∨ (∃ op, i = .reservedHostOp op) ∨
      ∃ m, i.message? = some m := by
  cases i with
  | nop => exact .inl rfl
  | feed chunk => exact .inr (.inl ⟨chunk, rfl⟩)
  | reset => exact .inr (.inr (.inl rfl))
  | reservedHostOp op => exact .inr (.inr (.inr (.inl ⟨op, rfl⟩)))
  | framePublish | frameSubscribe | frameAck | framePing | framePong | frameUnnamedType =>
    exact .inr (.inr (.inr (.inr ⟨_, rfl⟩)))

/-- FEED sets REFUSED exactly when its chunk is longer than MAX_FEED (R16, R47). -/
theorem feedChunk_refused_iff (chunk : List Byte) (s : State) :
    (feedChunk chunk s).refused = true ↔ s.refused = true ∨ s.maxFeed < chunk.length := by
  rcases Nat.lt_or_ge s.maxFeed chunk.length with h | h
  · simp [feedChunk_refused h, h]
  · simp [feedChunk_accepted h, Nat.not_lt.2 h]

/-- A frame sets REFUSED exactly when it has no encoding or one longer than MAX_FEED (R50, R70, log 8). -/
theorem feedFrame_refused_iff (m : Message) (s : State) :
    (feedFrame m s).refused = true ↔
      s.refused = true ∨ ¬ m.Wf ∨ s.maxFeed < 11 + m.topic.length + m.payload.length := by
  by_cases h : m.Wf
  · rw [feedFrame_wf s h, feedChunk_refused_iff, encodeMessage_length, or_iff_right (not_not.2 h)]
  · simp only [feedFrame_not_wf s h, h, not_false_eq_true, true_or, or_true]

/-- For a frame instruction, `RefusedHere` is a condition on its message alone. -/
theorem refusedHere_frame {i : Instr} {m : Message} (s : State) (h : i.message? = some m) :
    RefusedHere i s ↔ ¬ m.Wf ∨ s.maxFeed < 11 + m.topic.length + m.payload.length := by
  cases i <;> cases h <;> rfl

/-- Settles O9, by the host operations one by one and all frames at once. -/
theorem refusedMarkIsSticky : Obligations.RefusedMarkIsSticky := by
  intro i s
  rcases instr_cases i with rfl | ⟨chunk, rfl⟩ | rfl | ⟨op, rfl⟩ | ⟨m, hm⟩
  · exact ⟨s, rfl, by simp [RefusedHere]⟩
  · exact ⟨feedChunk chunk s, rfl, feedChunk_refused_iff chunk s⟩
  · exact ⟨s.setBuf [], rfl, by simp [RefusedHere]⟩
  · exact ⟨s.refuse, rfl, by simp [RefusedHere]⟩
  · exact ⟨feedFrame m s, exec_frame s hm, by rw [refusedHere_frame s hm, feedFrame_refused_iff]⟩

/-! Successful runs. -/

/-- A run of no operations answers its start state, and only where REFUSED is false (R16). -/
theorem performAll_nil_next {s t : State} : performAll [] s = .next t ↔ s.refused = false ∧ s = t := by
  cases h : s.refused <;> simp [performAll_nil, h]

/-- A successful run is a first operation from an unrefused state and a successful run of the others. -/
theorem performAll_cons_next {i : Instr} {is : List Instr} {s t : State} :
    performAll (i :: is) s = .next t ↔
      s.refused = false ∧ ∃ u, exec i s = .next u ∧ performAll is u = .next t := by
  cases h : s.refused with
  | true => simp [performAll_refused _ h]
  | false =>
    obtain ⟨u, hu⟩ := exec_next i s
    simp [performAll_cons is h hu, hu]

/-- REFUSED is false where a successful run starts and where it ends (R16, R92). -/
theorem performAll_next_refused {is : List Instr} {s t : State} (h : performAll is s = .next t) :
    s.refused = false ∧ t.refused = false := by
  induction is generalizing s with
  | nil =>
    obtain ⟨hs, rfl⟩ := performAll_nil_next.1 h
    exact ⟨hs, hs⟩
  | cons i is ih =>
    obtain ⟨hs, u, _, hu⟩ := performAll_cons_next.1 h
    exact ⟨hs, (ih hu).2⟩

/-- After a successful run the operations behind it go on from its final state (R30). -/
theorem performAll_append {before : List Instr} (after : List Instr) {s u : State}
    (h : performAll before s = .next u) : performAll (before ++ after) s = performAll after u := by
  induction before generalizing s with
  | nil =>
    obtain ⟨_, rfl⟩ := performAll_nil_next.1 h
    rfl
  | cons i is ih =>
    obtain ⟨hs, v, hv, hu⟩ := performAll_cons_next.1 h
    rw [List.cons_append, performAll_cons _ hs hv, ih hu]

/-- Settles O10: the refused operation sets REFUSED (O9), and a run goes no further from there. -/
theorem successfulRunHoldsNoRefusal : Obligations.SuccessfulRunHoldsNoRefusal := by
  refine ⟨fun _ _ _ h => performAll_next_refused h, fun before after i s u hrun hrefused => ?_⟩
  obtain ⟨v, hv, hmark⟩ := refusedMarkIsSticky i u
  rw [performAll_append _ hrun, performAll_cons after (performAll_next_refused hrun).2 hv]
  exact performAll_refused after (hmark.2 (.inr hrefused))

/-! What changes OUT, MAX_FEED and BUF. -/

/-- FEED only appends to OUT (R15). -/
theorem feedChunk_out (chunk : List Byte) (s : State) : ∃ events, (feedChunk chunk s).out = s.out ++ events := by
  rcases Nat.lt_or_ge s.maxFeed chunk.length with h | h
  · exact ⟨[], by simp [feedChunk_refused h]⟩
  · exact ⟨_, by rw [feedChunk_accepted h]⟩

/-- Every instruction appends to OUT and keeps MAX_FEED and the port (R15, R20, log 2). -/
theorem exec_appends (i : Instr) (s : State) :
    ∃ t events, exec i s = .next t ∧ t.out = s.out ++ events ∧ t.maxFeed = s.maxFeed ∧ t.hostPort = s.hostPort := by
  rcases exec_cases i s with h | h | h | ⟨chunk, h⟩
  · exact ⟨_, [], h, by simp⟩
  · exact ⟨_, [], h, by simp⟩
  · exact ⟨_, [], h, by simp⟩
  · obtain ⟨events, he⟩ := feedChunk_out chunk s
    exact ⟨_, events, h, he, by simp⟩

/-- Every step appends to OUT and keeps MAX_FEED (R15, R20). -/
theorem step_appends {s t : State} (h : step s = .next t) :
    (∃ events, t.out = s.out ++ events) ∧ t.maxFeed = s.maxFeed := by
  rcases step_cases s with ⟨_, hs⟩ | ⟨_, ⟨_, hs⟩ | ⟨_, hs⟩ | ⟨i, rest, _, hs⟩⟩ <;> rw [hs] at h
  · cases h
  · cases h; exact ⟨⟨[], by simp⟩, rfl⟩
  · cases h; exact ⟨⟨[], by simp⟩, rfl⟩
  · obtain ⟨u, events, hu, hout, hmax, _⟩ := exec_appends i (s.setPort rest)
    cases hu.symm.trans h
    exact ⟨⟨events, hout⟩, hmax⟩

/-- Settles O22, by the cases of an instruction and of a step. -/
theorem outputIsAppendOnly : Obligations.OutputIsAppendOnly :=
  ⟨exec_appends, fun _ _ h => step_appends h⟩

/-- The host port decodes to host operations only, never to a frame (R46). -/
theorem decodeHostOp_instr {port rest : List Byte} {i : Instr} (h : decodeHostOp port = .instr i rest) :
    i = .nop ∨ (∃ chunk, i = .feed chunk) ∨ i = .reset ∨ ∃ op, i = .reservedHostOp op := by
  rcases port with _ | ⟨op, operands⟩
  · cases h
  · simp only [decodeHostOp] at h
    split at h
    · cases h; exact .inl rfl
    split at h
    · rcases operands with _ | ⟨hi, _ | ⟨lo, data⟩⟩
      · cases h
      · cases h
      simp only [decodeFeed] at h
      split at h
      · cases h
      · cases h; exact .inr (.inl ⟨_, rfl⟩)
    split at h
    · cases h; exact .inr (.inr (.inl rfl))
    · cases h; exact .inr (.inr (.inr ⟨op, rfl⟩))

/-- Settles O23: an idle step, a refusal and NOP keep BUF, and the port holds no other operation but FEED and RESET. -/
theorem onlyFeedAndResetChangeBuffer : Obligations.OnlyFeedAndResetChangeBuffer := by
  intro s t h hbuf
  rcases step_cases s with ⟨_, hs⟩ | ⟨_, ⟨_, hs⟩ | ⟨_, hs⟩ | ⟨i, rest, hd, hs⟩⟩ <;> rw [hs] at h
  · cases h
  · cases h; exact absurd rfl hbuf
  · cases h; exact absurd rfl hbuf
  · rcases decodeHostOp_instr hd with rfl | ⟨chunk, rfl⟩ | rfl | ⟨op, rfl⟩
    · cases h; exact absurd rfl hbuf
    · exact ⟨rest, .inr ⟨chunk, hd⟩⟩
    · exact ⟨rest, .inl hd⟩
    · cases h; exact absurd rfl hbuf

/-! How long BUF can grow. -/

/-- A quiescent BUF holds at most 512 bytes (R87). -/
theorem quiescent_length {buf : List Byte} (h : Quiescent buf) : buf.length ≤ 512 := by
  rcases h with rfl | ⟨_, hl⟩ | ⟨_, _, hl, _⟩
  · exact Nat.zero_le _
  · exact Nat.le_trans (Nat.le_of_lt hl) (by decide)
  · exact hl

/-- The loop leaves no more bytes than it found (R12). -/
theorem reassemble_length (buf : List Byte) : (reassemble buf).1.length ≤ buf.length := by
  have hr : Reassembles buf (reassemble buf).2 (reassemble buf).1 := reassemble_iff.1 rfl
  exact Nat.le_of_add_right_le (reassembles_length hr)

/-- Everything one pass can do to the length of BUF: exit with no more bytes, or go on with at least 2 fewer (R76, R84). -/
theorem loopPass_length (buf : List Byte) :
    (∃ buf' events, loopPass buf = .exit buf' events ∧ buf'.length ≤ buf.length) ∨
    (∃ buf' event, loopPass buf = .again buf' event ∧ buf'.length + 2 ≤ buf.length) := by
  rcases split_at_first Config.startByte buf with h | ⟨noise, rest, hnoise, rfl⟩
  · exact .inl ⟨[], [], loopPass_noStart h, Nat.zero_le _⟩
  rw [loopPass_start rest hnoise]
  split
  · exact .inl ⟨_, _, rfl, by simp⟩
  rcases split_at_first Config.endByte rest with h | ⟨body, tail, hbody, rfl⟩
  · rw [cutCandidate_noEnd h]
    split
    · exact .inl ⟨_, _, rfl, Nat.zero_le _⟩
    · exact .inl ⟨_, _, rfl, by simp⟩
  · exact .inr ⟨_, _, cutCandidate_end tail hbody, by simp; omega⟩

/-- Settles O25: a quiescent BUF has at most 512 bytes, and neither the loop nor a pass of it adds any. -/
theorem feedFitsBufferCapacity : Obligations.FeedFitsBufferCapacity := by
  intro chunk s hq hc
  refine ⟨?_, ⟨feedChunk chunk s, rfl, ?_⟩, fun buf buf' => ?_⟩
  · have := quiescent_length hq
    rw [List.length_append]
    omega
  · rw [feedChunk_accepted hc]
    exact reassemble_length _
  · rcases loopPass_length buf with ⟨b, events, hp, hl⟩ | ⟨b, event, hp, hl⟩ <;> rw [hp]
    · exact ⟨fun _ h => by cases h; exact hl, nofun⟩
    · exact ⟨nofun, fun _ h => by cases h; exact hl⟩

end Sys2Proof.Machine
end

section
/-! The statements of 20_memory.md: big-endian fields, what a FEED's effects depend on, and the order in which a host program
is performed. -/

namespace Sys2Proof.Machine

open Sys2Proof.Safety

/-! Noninterference of FEED. -/

/-- Settles O24: MAX_FEED alone decides whether the chunk is refused, and an accepted one only sends BUF through the loop. -/
theorem feedDependsOnBufferOnly : Obligations.FeedDependsOnBufferOnly := by
  intro chunk s1 s2 hbuf hmax
  rcases Nat.lt_or_ge s1.maxFeed chunk.length with h | h
  · refine ⟨_, _, [], rfl, rfl, ?_⟩
    simp [feedChunk_refused h, feedChunk_refused (hmax ▸ h), hbuf]
  · refine ⟨_, _, (reassemble (s1.buf ++ chunk)).2, rfl, rfl, ?_⟩
    simp [feedChunk_accepted h, feedChunk_accepted (hmax ▸ h), hbuf]

/-! The encoding of one host operation (R46). -/

/-- FEED's operands are read back, whatever stands behind the data. -/
theorem decodeFeed_append (chunk rest : List Byte) (h : chunk.length ≤ Config.maxLen) :
    decodeFeed (hiByte (BitVec.ofNat 16 chunk.length) :: loByte (BitVec.ofNat 16 chunk.length) :: (chunk ++ rest)) =
      .instr (.feed chunk) rest := by
  have hlen : (BitVec.ofNat 16 chunk.length).toNat = chunk.length :=
    Nat.mod_eq_of_lt (Nat.lt_of_le_of_lt h (by decide))
  simp [decodeFeed, hlen]

/-- A reserved op byte names none of the three operations. -/
theorem decodeHostOp_reserved {op : Byte} (rest : List Byte) (h : 3 ≤ op.toNat) :
    decodeHostOp (op :: rest) = .instr (.reservedHostOp op) rest := by
  have hne (k : Byte) (hk : k.toNat < 3) : op ≠ k := by
    rintro rfl
    omega
  simp only [decodeHostOp, if_neg (hne 0x00#8 (by decide)), if_neg (hne 0x01#8 (by decide)),
    if_neg (hne 0x02#8 (by decide))]

/-- A host operation is read back from its encoding, whatever stands behind it on the port. -/
theorem decodeHostOp_encode_append {i : Instr} (rest : List Byte) (hf : i.format = .hostOp) (hw : i.Wf) :
    decodeHostOp (encode i ++ rest) = .instr i rest := by
  cases i with
  | nop => rfl
  | feed chunk => exact decodeFeed_append chunk rest hw
  | reset => rfl
  | reservedHostOp op => exact decodeHostOp_reserved rest hw
  | framePublish | frameSubscribe | frameAck | framePing | framePong | frameUnnamedType => cases hf

/-! No meaning reads the host port (log 2). -/

@[simp] theorem State.setPort_self (s : State) : s.setPort s.hostPort = s := rfl

@[simp] theorem State.setPort_setPort (s : State) (p q : List Byte) : (s.setPort p).setPort q = s.setPort q := rfl

theorem feedChunk_setPort (chunk : List Byte) (s : State) (p : List Byte) :
    feedChunk chunk (s.setPort p) = (feedChunk chunk s).setPort p := by
  rcases Nat.lt_or_ge s.maxFeed chunk.length with h | h
  · rw [feedChunk_refused h, feedChunk_refused (s := s.setPort p) h]
    rfl
  · rw [feedChunk_accepted h, feedChunk_accepted (s := s.setPort p) h]
    rfl

theorem feedFrame_setPort (m : Message) (s : State) (p : List Byte) :
    feedFrame m (s.setPort p) = (feedFrame m s).setPort p := by
  by_cases h : m.Wf
  · rw [feedFrame_wf _ h, feedFrame_wf _ h, feedChunk_setPort]
  · rw [feedFrame_not_wf _ h, feedFrame_not_wf _ h]
    rfl

/-- With another port an instruction does the same and leaves that port. -/
theorem exec_setPort {i : Instr} {s t : State} (p : List Byte) (h : exec i s = .next t) :
    exec i (s.setPort p) = .next (t.setPort p) := by
  rcases instr_cases i with rfl | ⟨chunk, rfl⟩ | rfl | ⟨op, rfl⟩ | ⟨m, hm⟩
  · cases h; rfl
  · cases h; exact congrArg _ (feedChunk_setPort chunk s p)
  · cases h; rfl
  · cases h; rfl
  · cases (exec_frame s hm).symm.trans h
    rw [exec_frame _ hm, feedFrame_setPort]

/-! A host program is performed in order. -/

theorem encodeProgram_cons (i : Instr) (is : List Instr) : encodeProgram (i :: is) = encode i ++ encodeProgram is :=
  List.flatMap_cons

/-- A run of steps begins with one step. -/
theorem run_succ {s t : State} (k : Nat) (h : step s = .next t) :
    Host.Core.run Sys2Proof.core (k + 1) s = Host.Core.run Sys2Proof.core k t := by
  have hcore : Sys2Proof.core.step s = .next t := h
  simp only [Host.Core.run, hcore]

/-- The step of a port that begins with the encoding of an operation performs it and leaves what stands behind it (R30, R46). -/
theorem step_encode {i : Instr} {s t : State} (port : List Byte) (hf : i.format = .hostOp) (hw : i.Wf)
    (hr : s.refused = false) (he : exec i s = .next t) :
    step (s.setPort (encode i ++ port)) = .next (t.setPort port) := by
  rw [step_of_decode (s := s.setPort (encode i ++ port)) hr (decodeHostOp_encode_append port hf hw),
    State.setPort_setPort]
  exact exec_setPort port he

/-- Steps over the encodings of a list of operations end where its successful run ends, whatever port that run began with. -/
theorem run_encodeProgram {is : List Instr} {s t : State} (rest : List Byte)
    (hw : ∀ i ∈ is, i.format = .hostOp ∧ i.Wf) (h : performAll is s = .next t) :
    Host.Core.run Sys2Proof.core is.length (s.setPort (encodeProgram is ++ rest)) = .next (t.setPort rest) := by
  induction is generalizing s with
  | nil =>
    obtain ⟨_, rfl⟩ := performAll_nil_next.1 h
    rfl
  | cons i is ih =>
    obtain ⟨⟨hf, hi⟩, hws⟩ := List.forall_mem_cons.1 hw
    obtain ⟨hr, u, hu, hrun⟩ := performAll_cons_next.1 h
    rw [encodeProgram_cons, List.append_assoc, List.length_cons, run_succ _ (step_encode _ hf hi hr hu)]
    exact ih hws hrun

/-- Settles O54: the start state's port is the program's encoding already. -/
theorem hostProgramRunsInOrder : Obligations.HostProgramRunsInOrder := by
  intro is s t rest hw hport h
  have hrun := run_encodeProgram rest hw h
  rwa [← hport, State.setPort_self] at hrun

/-! Big-endian fields. -/

theorem byteAt_of_getElem? {s : List Byte} {i : Nat} {b : Byte} (h : s[i]? = some b) : byteAt s i = b := by
  simp [byteAt, h]

/-- The byte sent first weighs 256 (R21). -/
theorem hiByte_toNat (v : Half) : (hiByte v).toNat = v.toNat / 256 := by
  have hv : v.toNat = 256 * (hiByte v).toNat + (loByte v).toNat := by rw [← ofBytes_toNat, ofBytes_hi_lo]
  have := (loByte v).isLt
  omega

/-- Settles O35: a field is the two bytes read, and splitting a value undoes joining them. -/
theorem fieldsAreBigEndian : Obligations.FieldsAreBigEndian := by
  refine ⟨fun s i hi lo h0 h1 => ?_, fun v => ⟨ofBytes_hi_lo v, hiByte_toNat v⟩⟩
  rw [be16, byteAt_of_getElem? h0, byteAt_of_getElem? h1, ofBytes_toNat]

end Sys2Proof.Machine
end

section
/-! The statements of 30_encoding.md: decoding inverts encoding in both formats, refused operations, frames as FEEDs of their
encodings, the assembler, and the event codes. -/

namespace Sys2Proof.Machine

open Sys2Proof.Safety

/-! What `Validate` answers on a sequence laid out as a frame. -/

section layout
variable {type idHi idLo qos tl plHi plLo crcHi crcLo last : Byte} {topic payload extra : List Byte}

/-- The length fields of a layout that they describe give its length without what follows the frame (R68). -/
theorem expectedLength_framed (start : Byte) (ht : topic.length = tl.toNat)
    (hp : payload.length = (ofBytes plHi plLo).toNat) :
    expectedLength (framed start type idHi idLo qos tl topic plHi plLo payload crcHi crcLo last extra) =
      11 + topic.length + payload.length := by
  rw [expectedLength, framed_topicLen, ← ht, framed_payloadLen, ← hp]

/-- The CRC check on such a layout (R63). -/
theorem crcMatches_framed (start : Byte) (ht : topic.length = tl.toNat)
    (hp : payload.length = (ofBytes plHi plLo).toNat) :
    CrcMatches (framed start type idHi idLo qos tl topic plHi plLo payload crcHi crcLo last extra) ↔
      crc16 ([type, idHi, idLo, qos, tl] ++ topic ++ [plHi, plLo] ++ payload) = ofBytes crcHi crcLo := by
  have hspan : 11 + topic.length + payload.length - 4 = 7 + topic.length + payload.length := by omega
  have hfield : 11 + topic.length + payload.length - 3 = 8 + topic.length + payload.length := by omega
  rw [CrcMatches, expectedLength_framed start ht hp, hspan, hfield, framed_span, framed_crc]

/-- The checks left when START and the length fields are right, and the extraction (R63 to R66). -/
theorem validate_framed (ht : topic.length = tl.toNat) (hp : payload.length = (ofBytes plHi plLo).toNat) :
    validate (framed Config.startByte type idHi idLo qos tl topic plHi plLo payload crcHi crcLo last extra) =
      if crc16 ([type, idHi, idLo, qos, tl] ++ topic ++ [plHi, plLo] ++ payload) ≠ ofBytes crcHi crcLo then
        .err .crcMismatch
      else if last ≠ Config.endByte ∨ extra ≠ [] then .err .badEnd
      else .ok ⟨type, ofBytes idHi idLo, qos, topic, payload⟩ := by
  have hlast : 11 + topic.length + payload.length - 1 = 10 + topic.length + payload.length := by omega
  have hextra : 11 + topic.length + payload.length ≠ 11 + topic.length + payload.length + extra.length ↔
      extra ≠ [] := by rw [← List.length_pos_iff]; omega
  rw [validate_long rfl (by rw [framed_length]; omega)]
  simp only [crcMatches_framed Config.startByte ht hp]
  rw [expectedLength_framed Config.startByte ht hp, framed_length, if_neg (by omega), hlast, framed_last,
    framed_topicLen, ← ht, framed_payloadLen, ← hp, framed_extract]
  simp only [hextra]

end layout

/-- `Validate(Encode(m)) = OK(m)` on the domain of `Encode` (R71). -/
theorem validate_encodeMessage {m : Message} (h : m.Wf) : validate (encodeMessage m) = .ok m := by
  obtain ⟨htopic, hpayload⟩ := h
  have ht : m.topic.length = (BitVec.ofNat 8 m.topic.length).toNat :=
    (Nat.mod_eq_of_lt (Nat.lt_succ_of_le htopic)).symm
  have hp : m.payload.length = (BitVec.ofNat 16 m.payload.length).toNat :=
    (Nat.mod_eq_of_lt (Nat.lt_succ_of_le hpayload)).symm
  have hcrc : crc16 (frameBody m) = ofBytes (hiByte (crc16 (frameBody m))) (loByte (crc16 (frameBody m))) :=
    (ofBytes_hi_lo _).symm
  rw [encodeMessage_eq_framed, validate_framed ht (by rwa [ofBytes_hi_lo])]
  refine (if_neg (not_not.2 hcrc)).trans ?_
  rw [if_neg (by simp), ofBytes_hi_lo]

/-! A frame instruction and its message. -/

/-- The frame instructions are those that carry a message. -/
theorem format_frameType_iff {i : Instr} : i.format = .frameType ↔ ∃ m, i.message? = some m := by
  cases i <;> simp [Instr.format, Instr.message?]

theorem encode_frame {i : Instr} {m : Message} (h : i.message? = some m) : encode i = encodeMessage m := by
  cases i <;> cases h <;> rfl

/-- A frame instruction that has an encoding carries a message that has one. -/
theorem wf_frame {i : Instr} {m : Message} (h : i.message? = some m) (hw : i.Wf) : m.Wf := by
  cases i with
  | nop | feed | reset | reservedHostOp => cases h
  | framePublish | frameSubscribe | frameAck | framePing | framePong => cases h; exact hw
  | frameUnnamedType => cases h; exact hw.2

/-- An unnamed TYPE is none of the five codes that S3P names (R39, R40). -/
theorem ne_of_unnamedType {t k : Byte} (h : UnnamedType t) (hk : 1 ≤ k.toNat ∧ k.toNat ≤ 5) : t ≠ k := by
  rintro rfl
  rcases h with h | h <;> omega

/-- A frame instruction is the one its message stands for, by its TYPE (R39, R40). -/
theorem ofMessage_frame {i : Instr} {m : Message} (h : i.message? = some m) (hw : i.Wf) : Instr.ofMessage m = i := by
  cases i with
  | nop | feed | reset | reservedHostOp => cases h
  | framePublish | frameSubscribe | frameAck | framePing | framePong => cases h; rfl
  | frameUnnamedType type =>
    cases h
    have hne {k : Byte} (hk : 1 ≤ k.toNat ∧ k.toNat ≤ 5) : type ≠ k := ne_of_unnamedType hw.1 hk
    simp only [Instr.ofMessage, if_neg (hne (k := Config.typePublish) (by decide)),
      if_neg (hne (k := Config.typeSubscribe) (by decide)), if_neg (hne (k := Config.typeAck) (by decide)),
      if_neg (hne (k := Config.typePing) (by decide)), if_neg (hne (k := Config.typePong) (by decide))]

/-- A frame is read back from its encoding. -/
theorem decodeFrame_encode {i : Instr} {m : Message} (h : i.message? = some m) (hw : i.Wf) :
    decodeFrame (encode i) = .instr i [] := by
  rw [encode_frame h, decodeFrame, validate_encodeMessage (wf_frame h hw)]
  exact congrArg (Decoded.instr · []) (ofMessage_frame h hw)

/-- Settles O31, by the format: a host operation with nothing behind it, or a frame through `Validate`. -/
theorem decodeOfEncode : Obligations.DecodeOfEncode := by
  intro i hw
  cases hf : i.format with
  | hostOp =>
    rw [← List.append_nil (encode i)]
    exact decodeHostOp_encode_append [] hf hw
  | frameType =>
    obtain ⟨m, hm⟩ := format_frameType_iff.1 hf
    exact decodeFrame_encode hm hw

/-! The host operation decoder. -/

/-- Settles O32. -/
theorem hostOpDecodesAtHead : Obligations.HostOpDecodesAtHead :=
  fun _ rest hf hw => decodeHostOp_encode_append rest hf hw

/-- FEED's operands are accepted only as LEN, LEN data bytes, and the rest (R46). -/
theorem decodeFeed_instr {operands rest : List Byte} {i : Instr} (h : decodeFeed operands = .instr i rest) :
    ∃ hi lo chunk, i = .feed chunk ∧ operands = hi :: lo :: (chunk ++ rest) ∧
      chunk.length = (ofBytes hi lo).toNat := by
  rcases operands with _ | ⟨hi, _ | ⟨lo, data⟩⟩
  · cases h
  · cases h
  simp only [decodeFeed] at h
  split at h
  · cases h
  next hlen =>
    cases h
    exact ⟨hi, lo, _, rfl, by rw [List.take_append_drop], List.length_take_of_le (Nat.le_of_not_lt hlen)⟩

/-- The encoding of a FEED whose length is given by the two bytes of its LEN field. -/
theorem encode_feed {chunk : List Byte} {hi lo : Byte} (h : chunk.length = (ofBytes hi lo).toNat) :
    encode (.feed chunk) = 0x01#8 :: hi :: lo :: chunk := by
  simp [encode, h]

/-- A byte that names none of the three operations is a reserved op byte. -/
theorem three_le_of_ne {op : Byte} (h0 : op ≠ 0x00#8) (h1 : op ≠ 0x01#8) (h2 : op ≠ 0x02#8) : 3 ≤ op.toNat := by
  bv_omega

/-- Settles O33, by the branches of the decoder. -/
theorem hostOpDecodeIsExact : Obligations.HostOpDecodeIsExact := by
  intro s i rest h
  rcases s with _ | ⟨op, operands⟩
  · cases h
  simp only [decodeHostOp] at h
  split at h
  next h0 => cases h; exact ⟨rfl, trivial, by rw [h0]; rfl⟩
  split at h
  next h1 =>
    obtain ⟨hi, lo, chunk, rfl, rfl, hlen⟩ := decodeFeed_instr h
    have hmax : chunk.length ≤ Config.maxLen := hlen ▸ Nat.le_of_lt_succ (ofBytes hi lo).isLt
    exact ⟨rfl, hmax, by rw [encode_feed hlen, h1]; rfl⟩
  split at h
  next h2 => cases h; exact ⟨rfl, trivial, by rw [h2]; rfl⟩
  next h0 h1 h2 => cases h; exact ⟨rfl, three_le_of_ne h0 h1 h2, rfl⟩

/-- Settles O34: each decoder is run on the words. -/
theorem specWordsDecode : Obligations.SpecWordsDecode :=
  ⟨by decide, by decide, by decide, by decide +kernel, by decide, by decide, by decide, by decide +kernel,
    by decide +kernel, by decide +kernel⟩

/-! Refused operations. -/

/-- A FEED whose LEN field is not whole, or whose data are fewer than LEN, is rejected (R47). -/
theorem decodeFeed_truncated {operands : List Byte}
    (h : operands.length < 2 ∨
      ∃ hi lo data, operands = hi :: lo :: data ∧ data.length < 256 * hi.toNat + lo.toNat) :
    decodeFeed operands = .reject .truncatedFeed := by
  rcases h with h | ⟨hi, lo, data, rfl, h⟩
  · rcases operands with _ | ⟨hi, _ | ⟨lo, data⟩⟩
    · rfl
    · rfl
    · exact absurd h (by simp)
  · rw [← ofBytes_toNat] at h
    simp only [decodeFeed, if_pos h]

/-- The step of a port that begins with a truncated FEED (R47, log 6). -/
theorem step_of_truncatedFeed {s : State} (hr : s.refused = false)
    (hd : decodeHostOp s.hostPort = .reject .truncatedFeed) : step s = .next (s.setPort []).refuse := by
  simp [step, performNext, hr, hd]

/-- Settles O8, by the three kinds of refused operation. -/
theorem refusedOperationsChangeNothing : Obligations.RefusedOperationsChangeNothing := by
  refine ⟨fun _ _ => rfl, fun _ _ h => congrArg _ (feedChunk_refused h), fun s rest hr hport h => ?_⟩
  have hd : decodeHostOp s.hostPort = .reject .truncatedFeed := by
    rw [hport]
    exact decodeFeed_truncated h
  exact ⟨_, step_of_truncatedFeed hr hd, rfl, rfl, rfl, rfl⟩

/-! Frames as FEEDs of their encodings. -/

/-- Settles O28: both sides feed the encoding of the message that the instruction carries. -/
theorem frameIsFeedOfItsEncoding : Obligations.FrameIsFeedOfItsEncoding := by
  intro i s hf hw
  obtain ⟨m, hm⟩ := format_frameType_iff.1 hf
  rw [exec_frame s hm, feedFrame_wf s (wf_frame hm hw), encode_frame hm]
  rfl

/-- Settles O30: without an encoding the frame is refused as such, and else as a FEED longer than MAX_FEED. -/
theorem frameTooLongIsRefused : Obligations.FrameTooLongIsRefused := by
  intro i m s hm h
  rw [exec_frame s hm]
  by_cases hw : m.Wf
  · have hlong : s.maxFeed < (encodeMessage m).length := by
      rw [encodeMessage_length]
      exact h.resolve_left (not_not.2 hw)
    rw [feedFrame_wf s hw, feedChunk_refused hlong]
  · rw [feedFrame_not_wf s hw]

/-! The assembler. -/

/-- The assembler's FEED, by the bound that accepts it. -/
theorem asmFeed_eq (n : Nat) (chunk : List Byte) :
    asmFeed n chunk = if chunk.length ≤ n then some [.feed chunk] else none := by
  simp only [asmFeed, ← Nat.not_le, ite_not]

/-- Settles O55: the first two are the assembler's FEED, and FEEDBYTES makes one FEED per operand. -/
theorem pseudoOperationsExpand : Obligations.PseudoOperationsExpand := by
  refine ⟨fun n m hw => ?_, fun n k v => ?_, fun _ _ _ => rfl⟩
  · rw [AsmOp.expand, if_pos hw, asmFeed_eq]
  · rw [AsmOp.expand, asmFeed_eq, List.length_replicate]

/-- A well-formed host operation that no block with this MAX_FEED refuses. -/
def AcceptedAt (n : Nat) (i : Instr) : Prop :=
  i.format = .hostOp ∧ i.Wf ∧ ∀ s : State, s.maxFeed = n → ¬ RefusedHere i s

theorem acceptedAt_nop (n : Nat) : AcceptedAt n .nop := ⟨rfl, trivial, fun _ _ => id⟩

theorem acceptedAt_reset (n : Nat) : AcceptedAt n .reset := ⟨rfl, trivial, fun _ _ => id⟩

theorem acceptedAt_feed {n : Nat} {chunk : List Byte} (hn : FeedBound n) (h : chunk.length ≤ n) :
    AcceptedAt n (.feed chunk) :=
  ⟨rfl, Nat.le_trans h hn.2, fun _ hs => Nat.not_lt.2 (hs ▸ h)⟩

theorem acceptedAt_asmFeed {n : Nat} {chunk : List Byte} {is : List Instr} (hn : FeedBound n)
    (h : asmFeed n chunk = some is) : ∀ i ∈ is, AcceptedAt n i := by
  rw [asmFeed_eq] at h
  split at h
  next hlen =>
    cases h
    exact List.forall_mem_singleton.2 (acceptedAt_feed hn hlen)
  · cases h

/-- A line that the assembler takes stands for accepted operations only (R49, R50). -/
theorem acceptedAt_expand {n : Nat} {op : AsmOp} {is : List Instr} (hn : FeedBound n)
    (h : op.expand n = some is) : ∀ i ∈ is, AcceptedAt n i := by
  cases op with
  | nop => cases h; exact List.forall_mem_singleton.2 (acceptedAt_nop n)
  | reset => cases h; exact List.forall_mem_singleton.2 (acceptedAt_reset n)
  | feed bytes => exact acceptedAt_asmFeed hn h
  | feedFrame m =>
    rw [AsmOp.expand] at h
    split at h
    · exact acceptedAt_asmFeed hn h
    · cases h
  | feedFill v k => exact acceptedAt_asmFeed hn h
  | feedBytes bytes =>
    cases h
    exact List.forall_mem_map.2 fun b _ => acceptedAt_feed hn hn.1

/-- A program expands line by line. -/
theorem expandProgram_cons_some {n : Nat} {op : AsmOp} {ops : List AsmOp} {is : List Instr}
    (h : expandProgram n (op :: ops) = some is) :
    ∃ js rest, op.expand n = some js ∧ expandProgram n ops = some rest ∧ is = js ++ rest := by
  simp only [expandProgram] at h
  split at h
  next js rest hop hops =>
    cases h
    exact ⟨js, rest, hop, hops, rfl⟩
  · cases h

theorem acceptedAt_expandProgram {n : Nat} {ops : List AsmOp} {is : List Instr} (hn : FeedBound n)
    (h : expandProgram n ops = some is) : ∀ i ∈ is, AcceptedAt n i := by
  induction ops generalizing is with
  | nil => cases h; exact List.forall_mem_nil _
  | cons op ops ih =>
    obtain ⟨js, rest, hop, hops, rfl⟩ := expandProgram_cons_some h
    exact List.forall_mem_append.2 ⟨acceptedAt_expand hn hop, ih hops⟩

/-- Settles O57: the bytes encode the program's expansion, whose every operation is accepted. -/
theorem assembledProgramIsAccepted : Obligations.AssembledProgramIsAccepted := by
  intro n ops bytes hn h
  obtain ⟨is, his, rfl⟩ := Option.map_eq_some_iff.1 h
  exact ⟨is, rfl, acceptedAt_expandProgram hn his⟩

/-! Event codes. -/

theorem frameErrorCode_le (k : FrameErrorKind) : (frameErrorCode k).toNat ≤ 5 := by
  cases k <;> decide

/-- Settles O53, by the kinds of event. -/
theorem eventCodes : Obligations.EventCodes := by
  refine ⟨fun _ => rfl, rfl, rfl, rfl, rfl, rfl, rfl, fun e => ?_⟩
  cases e with
  | frameOk m => exact Nat.zero_le 6
  | frameErr k => exact Nat.le_succ_of_le (frameErrorCode_le k)
  | overflow => exact Nat.le_refl 6

end Sys2Proof.Machine
end

section
/-! The statements of 40_crc16.md: the check values, the CRC as a linear map over GF(2) that loses nothing, and the CRC as a
remainder modulo the generator polynomial. -/

namespace Sys2Proof.Machine

open Sys2Proof.Safety

/-- Settles O42: the CRC is run on the three sequences. -/
theorem crcCheckValues : Obligations.CrcCheckValues := by
  unfold Obligations.CrcCheckValues
  decide +kernel

/-! Linearity over GF(2). -/

theorem crcShift_iterate_xor (n : Nat) (a b : Half) :
    crcShift^[n] (a ^^^ b) = crcShift^[n] a ^^^ crcShift^[n] b :=
  Function.Semiconj₂.iterate crcShift_xor n a b

theorem zext16_xor (x y : Byte) : zext16 (x ^^^ y) = zext16 x ^^^ zext16 y := BitVec.setWidth_xor

/-- `CrcByte` is linear in the register and the byte together (R53). -/
theorem crcByte_xor (c d : Half) (x y : Byte) : crcByte (c ^^^ d) (x ^^^ y) = crcByte c x ^^^ crcByte d y := by
  have regroup (u v : Half) : c ^^^ d ^^^ (u ^^^ v) = c ^^^ u ^^^ (d ^^^ v) := by ac_rfl
  rw [crcByte, zext16_xor, BitVec.shiftLeft_xor_distrib, regroup, crcShift_iterate_xor]
  rfl

/-- The register is linear in its start value and the bytes together. -/
theorem foldl_crcByte_xor {a b : List Byte} (h : a.length = b.length) (c d : Half) :
    (List.zipWith (· ^^^ ·) a b).foldl crcByte (c ^^^ d) = a.foldl crcByte c ^^^ b.foldl crcByte d := by
  induction a generalizing b c d with
  | nil =>
    obtain rfl := List.length_eq_zero_iff.1 h.symm
    rfl
  | cons x a ih =>
    obtain ⟨y, b, rfl⟩ := List.exists_cons_of_length_eq_add_one h.symm
    rw [List.zipWith_cons_cons, List.foldl_cons, crcByte_xor, ih (Nat.succ.inj h)]
    rfl

/-- Settles O44: three equal start values XOR to the one start value, and the register is linear. -/
theorem crcIsAffine : Obligations.CrcIsAffine := by
  intro a b c hab hbc
  have start : Config.crcInit = Config.crcInit ^^^ Config.crcInit ^^^ Config.crcInit := by decide
  have hlen : (List.zipWith (· ^^^ ·) a b).length = c.length := by
    rw [List.length_zipWith, hab, Nat.min_self, hbc]
  simp only [crc16_eq_fold]
  rw [start, foldl_crcByte_xor hlen, foldl_crcByte_xor hab, ← start]

/-! Nothing is lost. -/

theorem crcShift_injective : Function.Injective crcShift := by
  intro a b h
  apply BitVec.xor_eq_zero_iff.1
  apply crcShift_eq_zero
  rw [crcShift_xor, h]
  exact BitVec.xor_self

/-- The byte that goes in does not hide a difference in the register. -/
theorem crcByte_injective_register (b : Byte) : Function.Injective (crcByte · b) :=
  fun _ _ h => (BitVec.xor_left_inj _).1 (crcShift_injective.iterate 8 h)

/-- The register does not hide a difference in the byte that goes in. -/
theorem crcByte_injective_byte (c : Half) : Function.Injective (crcByte c) := by
  intro x y h
  have shifted : zext16 x <<< 8 = zext16 y <<< 8 := (BitVec.xor_right_inj _).1 (crcShift_injective.iterate 8 h)
  apply BitVec.eq_of_getLsbD_eq
  intro i hi
  have high := congrArg (·.getLsbD (8 + i)) shifted
  simpa [zext16, hi, Nat.add_lt_add_left hi 8] using high

/-- The bytes that follow do not hide a difference in the register. -/
theorem foldl_crcByte_injective (s : List Byte) : Function.Injective (s.foldl crcByte) := by
  induction s with
  | nil => exact Function.injective_id
  | cons b s ih => exact ih.comp (crcByte_injective_register b)

/-- Sequences that differ in one byte have different CRCs. -/
theorem crc16_injective_byte (a b : List Byte) : Function.Injective fun x => crc16 (a ++ x :: b) := by
  intro x y h
  simp only [crc16_append, List.foldl_cons] at h
  exact crcByte_injective_byte _ (foldl_crcByte_injective b h)

/-- A flipped bit leaves another byte. -/
theorem xor_bit_ne (b : Byte) {k : Nat} (h : k < 8) : b ^^^ (1#8 <<< k) ≠ b := by
  intro heq
  have bit := congrArg (·.getLsbD k) heq
  simp [h] at bit

/-- Settles O43: the flip changes one byte, and the CRC is injective in every byte. -/
theorem crcDetectsSingleBit : Obligations.CrcDetectsSingleBit := by
  intro s p k hp hk heq
  have whole : s = s.take p ++ byteAt s p :: s.drop (p + 1) := by
    rw [byteAt_eq_getElem hp, List.cons_getElem_drop_succ, List.take_append_drop]
  rw [flipBit, List.set_eq_take_append_cons_drop, if_pos hp] at heq
  exact xor_bit_ne _ hk (crc16_injective_byte _ _ (heq.trans (congrArg crc16 whole)))

/-! The CRC as a polynomial over GF(2). -/

section polynomial
open Polynomial

/-- A word as a polynomial over GF(2): bit `i` is the coefficient of `x^i`. -/
noncomputable def bitsPoly (w : Nat) (v : BitVec w) : (ZMod 2)[X] :=
  ∑ i ∈ Finset.range w, if v.getLsbD i then X ^ i else 0

/-- The generator polynomial `x^16 + x^12 + x^5 + 1` (R53). -/
noncomputable def crcGenerator : (ZMod 2)[X] := X ^ 16 + X ^ 12 + X ^ 5 + 1

/-- A message as a polynomial over GF(2), its first byte highest. -/
noncomputable def messagePoly (s : List Byte) : (ZMod 2)[X] := s.foldl (fun p b => p * X ^ 8 + bitsPoly 8 b) 0

theorem messagePoly_concat (s : List Byte) (b : Byte) :
    messagePoly (s ++ [b]) = messagePoly s * X ^ 8 + bitsPoly 8 b := by
  simp [messagePoly]

/-- XOR of words is addition of polynomials. -/
theorem bitsPoly_xor {w : Nat} (a b : BitVec w) : bitsPoly w (a ^^^ b) = bitsPoly w a + bitsPoly w b := by
  rw [bitsPoly, bitsPoly, bitsPoly, ← Finset.sum_add_distrib]
  refine Finset.sum_congr rfl fun i _ => ?_
  rw [BitVec.getLsbD_xor]
  cases a.getLsbD i <;> cases b.getLsbD i <;> simp [CharTwo.add_self_eq_zero]

/-- A shift by one multiplies by `x`, and drops the top bit's `x^16`. -/
theorem bitsPoly_shiftLeft_one (c : Half) :
    bitsPoly 16 (c <<< 1) + (if c.getLsbD 15 then X ^ 16 else 0) = X * bitsPoly 16 c := by
  have moved : ∀ i ∈ Finset.range 15, (if (c <<< 1).getLsbD (i + 1) then X ^ (i + 1) else 0 : (ZMod 2)[X]) =
      X * if c.getLsbD i then X ^ i else 0 := by
    intro i hi
    have := Finset.mem_range.1 hi
    simp [-BitVec.getLsbD_eq_getElem, BitVec.getLsbD_shiftLeft, show i + 1 < 16 by omega, pow_succ']
  rw [bitsPoly, bitsPoly, Finset.sum_range_succ', Finset.sum_congr rfl moved, Finset.sum_range_succ _ 15, mul_add,
    ← Finset.mul_sum]
  simp [pow_succ']

/-- A byte put in the high half is multiplied by `x^8`. -/
theorem bitsPoly_zext16_shiftLeft (b : Byte) : bitsPoly 16 (zext16 b <<< 8) = bitsPoly 8 b * X ^ 8 := by
  have low : ∀ i ∈ Finset.range 8, (if (zext16 b <<< 8).getLsbD i then X ^ i else 0 : (ZMod 2)[X]) = 0 := by
    intro i hi
    simp [BitVec.getLsbD_shiftLeft, Finset.mem_range.1 hi]
  have high : ∀ i ∈ Finset.range 8, (if (zext16 b <<< 8).getLsbD (8 + i) then X ^ (8 + i) else 0 : (ZMod 2)[X]) =
      (if b.getLsbD i then X ^ i else 0) * X ^ 8 := by
    intro i hi
    have := Finset.mem_range.1 hi
    simp [zext16, show 8 + i < 16 by omega, this, pow_add, mul_comm]
  rw [bitsPoly, bitsPoly, Finset.sum_range_add _ 8 8, Finset.sum_congr rfl high, Finset.sum_eq_zero low, zero_add,
    Finset.sum_mul]

/-- The constant that a shift adds is the generator without its `x^16` (R53). -/
theorem bitsPoly_crcPoly : X ^ 16 + bitsPoly 16 Config.crcPoly = crcGenerator := by
  have terms : bitsPoly 16 Config.crcPoly = 1 + X ^ 5 + X ^ 12 := by
    simp [bitsPoly, Config.crcPoly, Finset.sum_range_succ]
  rw [terms, crcGenerator]
  ring

/-- One shift multiplies by `x` and takes the generator off when the top bit is set: a step of long division (R53). -/
theorem bitsPoly_crcShift (c : Half) :
    bitsPoly 16 (crcShift c) + (if c.getLsbD 15 then crcGenerator else 0) = X * bitsPoly 16 c := by
  rw [← bitsPoly_shiftLeft_one, crcShift]
  split
  · rw [bitsPoly_xor, ← bitsPoly_crcPoly]
    linear_combination CharTwo.add_self_eq_zero (bitsPoly 16 Config.crcPoly)
  · rfl

/-! Residues modulo the generator: `mk crcGenerator` takes a polynomial to its residue, and `root crcGenerator` is that of
`x`. -/

open AdjoinRoot

/-- One shift multiplies the residue by `x`. -/
theorem mk_crcShift (c : Half) :
    mk crcGenerator (bitsPoly 16 (crcShift c)) = root crcGenerator * mk crcGenerator (bitsPoly 16 c) := by
  have step := congrArg (mk crcGenerator) (bitsPoly_crcShift c)
  rw [map_add, apply_ite (mk crcGenerator), mk_self, map_zero, ite_self, add_zero, map_mul, mk_X] at step
  exact step

theorem mk_crcShift_iterate (n : Nat) (c : Half) :
    mk crcGenerator (bitsPoly 16 (crcShift^[n] c)) = root crcGenerator ^ n * mk crcGenerator (bitsPoly 16 c) := by
  induction n with
  | zero => rw [pow_zero, one_mul]; rfl
  | succ n ih => rw [Function.iterate_succ_apply', mk_crcShift, ih, pow_succ', mul_assoc]

/-- A byte's step: the register times `x^8` plus the byte times `x^16` (R53). -/
theorem mk_crcByte (c : Half) (b : Byte) :
    mk crcGenerator (bitsPoly 16 (crcByte c b)) =
      mk crcGenerator (bitsPoly 16 c * X ^ 8 + bitsPoly 8 b * X ^ 16) := by
  rw [crcByte, mk_crcShift_iterate, bitsPoly_xor, bitsPoly_zext16_shiftLeft, ← mk_X, ← map_pow, ← map_mul]
  congr 1
  ring

/-- The CRC's residue, byte by byte from the end (R51, R52). -/
theorem mk_crc16 (s : List Byte) :
    mk crcGenerator (bitsPoly 16 (crc16 s)) =
      mk crcGenerator (bitsPoly 16 Config.crcInit * X ^ (8 * s.length) + messagePoly s * X ^ 16) := by
  induction s using List.reverseRecOn with
  | nil => simp [crc16_nil, messagePoly]
  | append_singleton s b ih =>
    have longer : bitsPoly 16 Config.crcInit * X ^ (8 * (s ++ [b]).length) + messagePoly (s ++ [b]) * X ^ 16 =
        (bitsPoly 16 Config.crcInit * X ^ (8 * s.length) + messagePoly s * X ^ 16) * X ^ 8 + bitsPoly 8 b * X ^ 16 := by
      rw [messagePoly_concat, List.length_append, List.length_singleton]
      ring
    have last := mk_crcByte (crc16 s) b
    rw [map_add, map_mul, ih] at last
    rw [crc16_append, longer, map_add, map_mul]
    exact last

end polynomial

/-- Settles O45: the two sides have one residue, and over GF(2) their difference is their sum. -/
theorem crcIsPolynomialRemainder : Obligations.CrcIsPolynomialRemainder := by
  intro s
  have difference := AdjoinRoot.mk_eq_mk.1 (mk_crc16 s)
  rw [CharTwo.sub_eq_add, ← add_assoc] at difference
  exact difference

end Sys2Proof.Machine
end

section
/-! The statements of 41_frame_validate.md: what `Validate` accepts and rejects, the round trip with `Encode`, what it answers
on the slices the block cuts, and that the block therefore emits sound events only. -/

namespace Sys2Proof.Machine

open Sys2Proof.Safety

/-! The first checks. -/

/-- A first byte other than START decides (R59). -/
theorem validate_badStart {b : Byte} (s : List Byte) (h : b ≠ Config.startByte) :
    validate (b :: s) = .err .badStart := by
  simp [validate, h]

/-- START first and fewer than 11 bytes (R60). -/
theorem validate_tooShort {s : List Byte} (h0 : byteAt s 0 = Config.startByte) (h : s.length < 11) :
    validate s = .err .tooShort := by
  have hmin : s.length < Config.minFrame := h
  simp only [validate, h0, ne_eq, not_true, and_false, if_false, if_pos hmin]

/-- Settles O38: the two checks, and the empty sequence, which has no first byte. -/
theorem validateChecksStartThenLength : Obligations.ValidateChecksStartThenLength :=
  ⟨fun _ s h => validate_badStart s h, fun _ h => validate_tooShort rfl h, rfl⟩

/-- No length field makes a frame shorter than 11 bytes (R37). -/
theorem expectedLength_ge (s : List Byte) : 11 ≤ expectedLength s := by
  rw [expectedLength, Nat.add_assoc]
  exact Nat.le_add_right _ _

/-- The expected length, TOPIC_LEN being the sixth byte and PAYLOAD_LEN standing behind the topic (R36, R58). -/
theorem expectedLength_cons (start type idHi idLo qos tl : Byte) (rest : List Byte) :
    expectedLength (start :: type :: idHi :: idLo :: qos :: tl :: rest) =
      11 + tl.toNat + (be16 rest tl.toNat).toNat := by
  simp [expectedLength, be16, Nat.add_comm 6, Nat.add_right_comm _ 6]

/-- A length field that describes a longer frame (R61, R62). -/
theorem validate_lenOverrun {s : List Byte} (h0 : byteAt s 0 = Config.startByte) (h11 : 11 ≤ s.length)
    (h : s.length < expectedLength s) : validate s = .err .lenOverrun := by
  rw [validate_long h0 h11, if_pos h]

/-- Settles O39: either sum is at most the expected length. -/
theorem validateRejectsOverrun : Obligations.ValidateRejectsOverrun := by
  intro type idHi idLo qos tl rest h11
  refine ⟨fun h => validate_lenOverrun rfl h11 ?_, fun topic tail plHi plLo hrest htopic _ h => ?_⟩
  · rw [expectedLength_cons]
    exact Nat.lt_add_right _ h
  · refine validate_lenOverrun rfl h11 ?_
    rw [expectedLength_cons, hrest, be16_middle topic plHi plLo tail htopic, ofBytes_toNat]
    simp only [List.length_cons, List.length_append]
    omega

/-- Settles O40: the layout of `validate_framed`, its PAYLOAD_LEN read byte by byte. -/
theorem validateWholeFrame : Obligations.ValidateWholeFrame := by
  intro type idHi idLo qos tl plHi plLo crcHi crcLo last topic payload extra ht hp
  exact validate_framed ht (hp.trans (ofBytes_toNat plHi plLo).symm)

/-! The possible answers. -/

/-- Everything `Validate` can answer where START is first (R60 to R65). -/
theorem validate_cases {s : List Byte} (h0 : byteAt s 0 = Config.startByte) :
    (s.length < 11 ∧ validate s = .err .tooShort) ∨
    (s.length < expectedLength s ∧ validate s = .err .lenOverrun) ∨
    (expectedLength s ≤ s.length ∧ ¬ CrcMatches s ∧ validate s = .err .crcMismatch) ∨
    (expectedLength s ≤ s.length ∧ CrcMatches s ∧
      (byteAt s (expectedLength s - 1) ≠ Config.endByte ∨ expectedLength s ≠ s.length) ∧ validate s = .err .badEnd) ∨
    (expectedLength s = s.length ∧ CrcMatches s ∧ ∃ m, validate s = .ok m) := by
  rcases Nat.lt_or_ge s.length 11 with hshort | h11
  · exact .inl ⟨hshort, validate_tooShort h0 hshort⟩
  rw [validate_long h0 h11]
  split
  next hlen => exact .inr (.inl ⟨hlen, rfl⟩)
  next hlen =>
  have hle := Nat.le_of_not_lt hlen
  split
  next hcrc => exact .inr (.inr (.inl ⟨hle, hcrc, rfl⟩))
  next hcrc =>
  split
  next hend => exact .inr (.inr (.inr (.inl ⟨hle, not_not.1 hcrc, hend, rfl⟩)))
  next hend => exact .inr (.inr (.inr (.inr ⟨not_not.1 (not_or.1 hend).2, not_not.1 hcrc, _, rfl⟩)))

theorem validate_ne_badStart {s : List Byte} (h0 : byteAt s 0 = Config.startByte) : validate s ≠ .err .badStart := by
  rcases validate_cases h0 with ⟨_, hv⟩ | ⟨_, hv⟩ | ⟨_, _, hv⟩ | ⟨_, _, _, hv⟩ | ⟨_, _, m, hv⟩ <;> rw [hv] <;> nofun

theorem validate_tooShort_iff {s : List Byte} (h0 : byteAt s 0 = Config.startByte) :
    validate s = .err .tooShort ↔ s.length < 11 := by
  refine ⟨fun h => ?_, validate_tooShort h0⟩
  rcases validate_cases h0 with ⟨hs, _⟩ | ⟨_, hv⟩ | ⟨_, _, hv⟩ | ⟨_, _, _, hv⟩ | ⟨_, _, m, hv⟩
  · exact hs
  all_goals cases hv.symm.trans h

/-- Where END is last, only bytes behind the expected length can make a bad END (R64, R69). -/
theorem validate_badEnd_iff {s : List Byte} (h0 : byteAt s 0 = Config.startByte)
    (hlast : byteAt s (s.length - 1) = Config.endByte) :
    validate s = .err .badEnd ↔ expectedLength s < s.length ∧ CrcMatches s := by
  constructor
  · intro h
    rcases validate_cases h0 with ⟨_, hv⟩ | ⟨_, hv⟩ | ⟨_, _, hv⟩ | ⟨hle, hcrc, hend, _⟩ | ⟨_, _, m, hv⟩
    · cases hv.symm.trans h
    · cases hv.symm.trans h
    · cases hv.symm.trans h
    · have hne : expectedLength s ≠ s.length := fun heq => hend.elim (· (heq ▸ hlast)) (· heq)
      exact ⟨Nat.lt_of_le_of_ne hle hne, hcrc⟩
    · cases hv.symm.trans h
  · rintro ⟨hlt, hcrc⟩
    have h11 := Nat.le_trans (expectedLength_ge s) (Nat.le_of_lt hlt)
    rw [validate_long h0 h11, if_neg (Nat.lt_asymm hlt), if_neg (not_not.2 hcrc), if_pos (.inr (Nat.ne_of_lt hlt))]

/-- What holds of an accepted sequence (R59 to R64). -/
theorem validate_ok {s : List Byte} {m : Message} (h : validate s = .ok m) :
    byteAt s 0 = Config.startByte ∧ expectedLength s = s.length ∧ CrcMatches s := by
  have h0 : byteAt s 0 = Config.startByte := by
    rcases s with _ | ⟨b, s⟩
    · cases h
    · by_contra hb
      cases (validate_badStart s hb).symm.trans h
  rcases validate_cases h0 with ⟨_, hv⟩ | ⟨_, hv⟩ | ⟨_, _, hv⟩ | ⟨_, _, _, hv⟩ | ⟨hlen, hcrc, _⟩
  · cases hv.symm.trans h
  · cases hv.symm.trans h
  · cases hv.symm.trans h
  · cases hv.symm.trans h
  · exact ⟨h0, hlen, hcrc⟩

/-- Settles O41: such a slice has START first and END last. -/
theorem candidateVerdicts : Obligations.CandidateVerdicts := by
  intro body _
  have hlast : byteAt (Config.startByte :: body ++ [Config.endByte])
      ((Config.startByte :: body ++ [Config.endByte]).length - 1) = Config.endByte := by
    simp [byteAt_append_right]
  exact ⟨validate_ne_badStart rfl, validate_tooShort_iff rfl, validate_badEnd_iff rfl hlast,
    fun _ h => have ⟨_, hlen, _⟩ := validate_ok h; hlen⟩

/-! What `Validate` accepts. -/

/-- The checks left when START is first and the length fields are those of a message (R63 to R65). -/
theorem validate_frameBody {m : Message} (hw : m.Wf) (crc : Half) (last : Byte) (extra : List Byte) :
    validate (Config.startByte :: frameBody m ++ [hiByte crc, loByte crc, last] ++ extra) =
      if crc16 (frameBody m) ≠ crc then .err .crcMismatch
      else if last ≠ Config.endByte ∨ extra ≠ [] then .err .badEnd
      else .ok m := by
  have ht : m.topic.length = (BitVec.ofNat 8 m.topic.length).toNat :=
    (Nat.mod_eq_of_lt (Nat.lt_succ_of_le hw.1)).symm
  have hp : m.payload.length = (BitVec.ofNat 16 m.payload.length).toNat :=
    (Nat.mod_eq_of_lt (Nat.lt_succ_of_le hw.2)).symm
  rw [← ofBytes_hi_lo (BitVec.ofNat 16 m.payload.length)] at hp
  have checks := validate_framed (type := m.type) (idHi := hiByte m.id) (idLo := loByte m.id) (qos := m.qos)
    (crcHi := hiByte crc) (crcLo := loByte crc) (last := last) (extra := extra) ht hp
  rw [ofBytes_hi_lo crc, ofBytes_hi_lo m.id] at checks
  exact checks

/-- A sequence of at least `n` bytes splits behind its first `n`. -/
theorem exists_append_of_le_length {n : Nat} {s : List Byte} (h : n ≤ s.length) : ∃ a b, s = a ++ b ∧ a.length = n :=
  ⟨s.take n, s.drop n, (List.take_append_drop n s).symm, List.length_take_of_le h⟩

/-- A sequence with START first and at least as long as its length fields say is the frame of a message, except perhaps for its
CRC, its last byte and bytes after that (R36). -/
theorem exists_frameBody {s : List Byte} (h0 : byteAt s 0 = Config.startByte) (h : expectedLength s ≤ s.length) :
    ∃ m crc last extra, m.Wf ∧
      s = Config.startByte :: frameBody m ++ [hiByte crc, loByte crc, last] ++ extra := by
  have h11 := Nat.le_trans (expectedLength_ge s) h
  obtain ⟨start, type, idHi, idLo, qos, tl, rest, rfl⟩ :
      ∃ start type idHi idLo qos tl rest, s = start :: type :: idHi :: idLo :: qos :: tl :: rest := by
    match s with
    | start :: type :: idHi :: idLo :: qos :: tl :: rest => exact ⟨_, _, _, _, _, _, _, rfl⟩
  obtain rfl : start = Config.startByte := h0
  rw [expectedLength_cons] at h
  obtain ⟨topic, fields, rfl, htopic⟩ : ∃ topic fields, rest = topic ++ fields ∧ topic.length = tl.toNat :=
    exists_append_of_le_length (by simp only [List.length_cons] at h; omega)
  simp only [List.length_cons, List.length_append] at h
  obtain ⟨plHi, plLo, data, rfl⟩ : ∃ plHi plLo data, fields = plHi :: plLo :: data := by
    match fields with
    | [] | [_] => simp at h; omega
    | plHi :: plLo :: data => exact ⟨_, _, _, rfl⟩
  rw [be16_middle topic plHi plLo data htopic, List.length_cons, List.length_cons] at h
  obtain ⟨payload, trailer, rfl, hpayload⟩ :
      ∃ payload trailer, data = payload ++ trailer ∧ payload.length = (ofBytes plHi plLo).toNat :=
    exists_append_of_le_length (by omega)
  rw [List.length_append] at h
  obtain ⟨crcHi, crcLo, last, extra, rfl⟩ : ∃ crcHi crcLo last extra, trailer = crcHi :: crcLo :: last :: extra := by
    match trailer with
    | [] | [_] | [_, _] => simp at h; omega
    | crcHi :: crcLo :: last :: extra => exact ⟨_, _, _, _, rfl⟩
  have hwf : Message.Wf ⟨type, ofBytes idHi idLo, qos, topic, payload⟩ :=
    ⟨htopic ▸ Nat.le_of_lt_succ tl.isLt, hpayload ▸ Nat.le_of_lt_succ (ofBytes plHi plLo).isLt⟩
  exact ⟨_, ofBytes crcHi crcLo, last, extra, hwf, by simp [frameBody, htopic, hpayload]⟩

/-- Settles O37: an accepted sequence is a message's frame but for the CRC and END, and the checks leave only the encoding. -/
theorem validateAcceptsOnlyFrames : Obligations.ValidateAcceptsOnlyFrames := by
  intro s m h
  obtain ⟨hstart, hlen, -⟩ := validate_ok h
  obtain ⟨m', crc, last, extra, hw, rfl⟩ := exists_frameBody hstart (Nat.le_of_eq hlen)
  rw [validate_frameBody hw] at h
  split at h
  · cases h
  next hcrc =>
  split at h
  · cases h
  next hend =>
  cases h
  obtain ⟨rfl, rfl⟩ : last = Config.endByte ∧ extra = [] := by simpa using hend
  exact ⟨hw, by simp [encodeMessage, not_not.1 hcrc]⟩

/-! One bit of an accepted sequence flipped. -/

@[simp] theorem flipBit_length (s : List Byte) (p k : Nat) : (flipBit s p k).length = s.length :=
  List.length_set

theorem byteAt_flipBit_of_ne {s : List Byte} {p i : Nat} (k : Nat) (h : i ≠ p) :
    byteAt (flipBit s p k) i = byteAt s i := by
  simp [byteAt, flipBit, List.getElem?_set_ne h.symm]

theorem byteAt_flipBit_ne {s : List Byte} {p k : Nat} (hp : p < s.length) (hk : k < 8) :
    byteAt (flipBit s p k) p ≠ byteAt s p := by
  have hflip : byteAt (flipBit s p k) p = byteAt s p ^^^ (1#8 <<< k) := by
    rw [byteAt_eq_getElem (by simpa using hp)]
    exact List.getElem_set_self _
  rw [hflip]
  exact xor_bit_ne _ hk

/-- A field apart from the flipped byte reads the same. -/
theorem be16_flipBit_of_ne {s : List Byte} {p i : Nat} (k : Nat) (h : i ≠ p) (h' : i + 1 ≠ p) :
    be16 (flipBit s p k) i = be16 s i := by
  rw [be16, byteAt_flipBit_of_ne k h, byteAt_flipBit_of_ne k h', be16]

/-- Fields are equal only when both their bytes are. -/
theorem be16_inj {s t : List Byte} {i : Nat} (h : be16 s i = be16 t i) :
    byteAt s i = byteAt t i ∧ byteAt s (i + 1) = byteAt t (i + 1) := by
  have hhi := congrArg hiByte h
  have hlo := congrArg loByte h
  simp only [be16, hiByte_ofBytes, loByte_ofBytes] at hhi hlo
  exact ⟨hhi, hlo⟩

theorem byteAt_slice {s : List Byte} {lo hi i : Nat} (h : lo + i ≤ hi) : byteAt (slice s lo hi) i = byteAt s (lo + i) := by
  simp [byteAt, slice, List.getElem?_take_of_lt (Nat.lt_succ_of_le h)]

/-- A slice through the flipped byte is the slice with that bit flipped. -/
theorem slice_flipBit {s : List Byte} {lo hi p : Nat} (k : Nat) (hlo : lo ≤ p) (hhi : p ≤ hi) :
    slice (flipBit s p k) lo hi = flipBit (slice s lo hi) (p - lo) k := by
  have hbyte : byteAt (slice s lo hi) (p - lo) = byteAt s p := by
    rw [byteAt_slice (by omega), Nat.add_sub_cancel' hlo]
  rw [flipBit, flipBit, hbyte, slice, slice, List.take_set, List.drop_set, if_neg (Nat.not_lt.2 hlo)]

/-- Outside the length fields a flip leaves the expected length. -/
theorem expectedLength_flipBit_of_ne {s : List Byte} {p : Nat} (k : Nat) (h5 : p ≠ 5)
    (hhi : p ≠ 6 + (byteAt s 5).toNat) (hlo : p ≠ 7 + (byteAt s 5).toNat) :
    expectedLength (flipBit s p k) = expectedLength s := by
  rw [expectedLength, byteAt_flipBit_of_ne k h5.symm, be16_flipBit_of_ne k hhi.symm (by omega), expectedLength]

/-- In PAYLOAD_LEN it changes the expected length. -/
theorem expectedLength_flipBit_ne {s : List Byte} {p k : Nat} (hp : p < s.length) (hk : k < 8)
    (h : p = 6 + (byteAt s 5).toNat ∨ p = 7 + (byteAt s 5).toNat) :
    expectedLength (flipBit s p k) ≠ expectedLength s := by
  intro heq
  rw [expectedLength, byteAt_flipBit_of_ne k (by omega), expectedLength] at heq
  obtain ⟨hhi, hlo⟩ := be16_inj (BitVec.eq_of_toNat_eq (Nat.add_left_cancel heq))
  rcases h with rfl | rfl
  · exact byteAt_flipBit_ne hp hk hhi
  · exact byteAt_flipBit_ne hp hk (by rwa [Nat.add_right_comm] at hlo)

/-- A flip in the CRC span that leaves the expected length breaks the CRC check (R56, R72). -/
theorem not_crcMatches_flipBit {s : List Byte} {p k : Nat} (hcrc : CrcMatches s) (hlen : expectedLength s = s.length)
    (h : expectedLength (flipBit s p k) = s.length) (h1 : 1 ≤ p) (h2 : p ≤ s.length - 4) (hk : k < 8) :
    ¬ CrcMatches (flipBit s p k) := by
  intro hflip
  have h11 := hlen ▸ expectedLength_ge s
  rw [CrcMatches, hlen] at hcrc
  rw [CrcMatches, h, slice_flipBit k h1 h2, be16_flipBit_of_ne k (by omega) (by omega), ← hcrc] at hflip
  exact crcDetectsSingleBit _ _ _ (by rw [slice_length]; omega) hk hflip

/-- What `Validate` answers after a flip in the CRC span of a sequence it accepts (R72). -/
theorem validate_flipBit {s : List Byte} {m : Message} {p k : Nat} (hok : validate s = .ok m) (h1 : 1 ≤ p)
    (h2 : p ≤ s.length - 4) (hk : k < 8) :
    validate (flipBit s p k) =
      if s.length < expectedLength (flipBit s p k) then .err .lenOverrun
      else .err (if CrcMatches (flipBit s p k) then .badEnd else .crcMismatch) := by
  obtain ⟨hstart, hlen, hcrc⟩ := validate_ok hok
  have h11 := hlen ▸ expectedLength_ge s
  rw [validate_long (by rwa [byteAt_flipBit_of_ne k (by omega)]) (by rwa [flipBit_length]), flipBit_length]
  refine ite_congr rfl (fun _ => rfl) fun _ => ?_
  by_cases hflip : CrcMatches (flipBit s p k)
  · have hne : expectedLength (flipBit s p k) ≠ s.length :=
      fun h => not_crcMatches_flipBit hcrc hlen h h1 h2 hk hflip
    rw [if_neg (not_not.2 hflip), if_pos hflip, if_pos (.inr hne)]
  · rw [if_pos hflip, if_neg hflip]

/-- TOPIC_LEN of a frame (R70). -/
theorem encodeMessage_topicLen {m : Message} (h : m.Wf) : (byteAt (encodeMessage m) 5).toNat = m.topic.length := by
  rw [encodeMessage_eq_framed, framed_topicLen]
  exact Nat.mod_eq_of_lt (Nat.lt_succ_of_le h.1)

/-- Settles O46, by the expected length after the flip. -/
theorem bitFlipIsRejected : Obligations.BitFlipIsRejected := by
  intro m p k hw h1 h2 hk
  have hok := validate_encodeMessage hw
  obtain ⟨-, hlen, hcrc⟩ := validate_ok hok
  have mismatch (h : expectedLength (flipBit (encodeMessage m) p k) = (encodeMessage m).length) :
      validate (flipBit (encodeMessage m) p k) = .err .crcMismatch := by
    rw [validate_flipBit hok h1 h2 hk, if_neg (Nat.not_lt.2 (Nat.le_of_eq h)),
      if_neg (not_crcMatches_flipBit hcrc hlen h h1 h2 hk)]
  refine ⟨fun m' => ?_, fun h5 hhi hlo => mismatch ?_,
    fun hfield => ⟨fun h => ?_, fun h => ⟨?_, mismatch h⟩, fun h => ?_⟩⟩
  · rw [validate_flipBit hok h1 h2 hk]
    split <;> nofun
  · rw [← encodeMessage_topicLen hw] at hhi hlo
    rw [expectedLength_flipBit_of_ne k h5 hhi hlo, hlen]
  · rw [validate_flipBit hok h1 h2 hk, if_pos h]
  · refine hfield.resolve_right fun hpl => ?_
    rw [← encodeMessage_topicLen hw] at hpl
    have h11 := hlen ▸ expectedLength_ge (encodeMessage m)
    exact expectedLength_flipBit_ne (by omega) hk hpl (h.trans hlen.symm)
  · rw [validate_flipBit hok h1 h2 hk, if_neg (Nat.lt_asymm h)]

/-! What the block emits. -/

/-- A frame is what stands between its START and its END, with the two (R36). -/
theorem encodeMessage_eq_innerBytes (m : Message) :
    encodeMessage m = Config.startByte :: innerBytes m ++ [Config.endByte] := by
  simp [innerBytes, encodeMessage]

/-- The event for a slice that the block cuts is sound: what it delivers is the whole slice, which holds no inner END (R69). -/
theorem eventSound_candidate {body : List Byte} (h : Config.endByte ∉ body) :
    EventSound (Event.ofVerdict (validate (Config.startByte :: body ++ [Config.endByte]))) := by
  cases hv : validate (Config.startByte :: body ++ [Config.endByte]) with
  | ok m =>
    obtain ⟨hw, hs⟩ := validateAcceptsOnlyFrames _ m hv
    rw [encodeMessage_eq_innerBytes, List.append_cancel_right_eq, List.cons_inj_right] at hs
    rw [hs] at h
    exact ⟨hw, h⟩
  | err kind =>
    rintro rfl
    exact validate_ne_badStart rfl hv

/-- Every event of the loop is sound. -/
theorem eventSound_of_reassembles {buf buf' : List Byte} {events : List Event} (h : Reassembles buf events buf') :
    ∀ e ∈ events, EventSound e := by
  induction h with
  | noStart | short | hold => exact List.forall_mem_nil _
  | overflow => exact List.forall_mem_singleton.2 trivial
  | cut _ hbody _ _ ih => exact List.forall_mem_cons.2 ⟨eventSound_candidate hbody, ih⟩

theorem outSound_feedChunk (chunk : List Byte) {s : State} (h : OutSound s) : OutSound (feedChunk chunk s) := by
  rcases Nat.lt_or_ge s.maxFeed chunk.length with hc | hc
  · rwa [feedChunk_refused hc]
  · rw [feedChunk_accepted hc]
    exact List.forall_mem_append.2 ⟨h, eventSound_of_reassembles (reassemble_iff.1 rfl)⟩

/-- Every instruction keeps the output sound. -/
theorem outSound_exec {i : Instr} {s t : State} (h : OutSound s) (he : exec i s = .next t) : OutSound t := by
  rcases exec_cases i s with hi | hi | hi | ⟨chunk, hi⟩ <;> cases hi.symm.trans he
  · exact h
  · exact h
  · exact h
  · exact outSound_feedChunk chunk h

/-- Settles O21, by the cases of a step: only an instruction can emit. -/
theorem stepKeepsOutputSound : Obligations.StepKeepsOutputSound := by
  intro s t h hstep
  rcases step_cases s with ⟨_, hs⟩ | ⟨_, ⟨_, hs⟩ | ⟨_, hs⟩ | ⟨i, rest, _, hs⟩⟩ <;> rw [hs] at hstep
  · cases hstep
  · cases hstep; exact h
  · cases hstep; exact h
  · exact outSound_exec (s := s.setPort rest) h hstep

/-! Delivery. -/

/-- A frame without an inner END, fed where no START is pending, is cut whole and leaves BUF empty (R83, R84). -/
theorem reassembles_encodeMessage {m : Message} {noise : List Byte} (hw : m.Wf) (hclean : CleanInside m)
    (hnoise : Config.startByte ∉ noise) : Reassembles (noise ++ encodeMessage m) [.frameOk m] [] := by
  have hlen : Config.minFrame ≤ (Config.startByte :: innerBytes m ++ [Config.endByte]).length := by
    rw [← encodeMessage_eq_innerBytes, encodeMessage_length, Nat.add_assoc]
    exact Nat.le_add_right _ _
  have cut := Reassembles.cut (tail := []) hnoise hclean hlen (.noStart List.not_mem_nil)
  rw [← encodeMessage_eq_innerBytes, validate_encodeMessage hw, List.append_assoc, ← encodeMessage_eq_innerBytes] at cut
  exact cut

/-- Every frame instruction is delivered, whatever its row. -/
theorem delivered_frame {i : Instr} {m : Message} (s : State) (h : i.message? = some m) : Delivered m i s := by
  intro hw hclean hfit hstart
  rw [exec_frame s h, feedFrame_wf s hw,
    feedChunk_of_reassembles (by rwa [encodeMessage_length]) (reassembles_encodeMessage hw hclean hstart)]

/-- Settles O29: each row is the frame instruction of its message. -/
theorem frameIsDelivered : Obligations.FrameIsDelivered :=
  fun _ _ _ _ s => ⟨delivered_frame s rfl, delivered_frame s rfl, delivered_frame s rfl, delivered_frame s rfl,
    delivered_frame s rfl, fun _ => delivered_frame s rfl⟩

/-- Settles O36: an inner END makes the frame's FRAME_OK unsound, and a clean frame is delivered. -/
theorem validateInvertsEncode : Obligations.ValidateInvertsEncode := by
  refine fun m hw => ⟨validate_encodeMessage hw, fun s hbuf hfit => ?_⟩
  refine ⟨_, _, rfl, congrArg State.out (feedChunk_accepted hfit), fun h => ?_, fun hclean => ?_⟩
  · exact (eventSound_of_reassembles (reassemble_iff.1 rfl) _ h).2
  · have hr := reassembles_encodeMessage (noise := s.buf) hw hclean (by simp [hbuf])
    rw [reassemble_iff.2 hr]
    exact List.mem_singleton_self _

end Sys2Proof.Machine
end

section
/-! The statements of 42_reassembler.md: each step of the loop as a FEED, the loop's bounds, quiescent buffers as the invariant
of every step, and what the chunking of a stream does and does not change. -/

namespace Sys2Proof.Machine

open Sys2Proof.Safety

/-! The outcome of a FEED, by the rules' relation. -/

/-- The rules allow one outcome only. -/
theorem reassembles_unique {buf b1 b2 : List Byte} {e1 e2 : List Event} (h1 : Reassembles buf e1 b1)
    (h2 : Reassembles buf e2 b2) : e1 = e2 ∧ b1 = b2 := by
  have same := (reassemble_iff.2 h1).symm.trans (reassemble_iff.2 h2)
  exact (Prod.mk.inj same).symm

theorem exec_feed_of_reassembles {chunk buf' : List Byte} {s : State} {events : List Event}
    (hc : chunk.length ≤ s.maxFeed) (h : Reassembles (s.buf ++ chunk) events buf') :
    exec (.feed chunk) s = .next { s with buf := buf', out := s.out ++ events } :=
  congrArg _ (feedChunk_of_reassembles hc h)

/-- A FEED without an event changes BUF alone. -/
theorem exec_feed_silent {chunk buf' : List Byte} {s : State} (hc : chunk.length ≤ s.maxFeed)
    (h : Reassembles (s.buf ++ chunk) [] buf') : exec (.feed chunk) s = .next { s with buf := buf' } := by
  rw [exec_feed_of_reassembles hc h, List.append_nil]

/-- The empty FEED only runs the loop on BUF. -/
theorem exec_feed_nil {s : State} {events : List Event} {buf' : List Byte} (h : Reassembles s.buf events buf') :
    exec (.feed []) s = .next { s with buf := buf', out := s.out ++ events } :=
  exec_feed_of_reassembles (Nat.zero_le _) (by rwa [List.append_nil])

/-- From a quiescent BUF the empty FEED changes nothing (R88). -/
theorem exec_feed_nil_of_quiescent {s : State} (h : Quiescent s.buf) : exec (.feed []) s = .next s := by
  rw [exec_feed_nil (reassembles_quiescent h), List.append_nil]

/-- Settles O11: the relation is total and has one outcome. -/
theorem feedObeysReassemblyRules : Obligations.FeedObeysReassemblyRules := by
  intro chunk s hc
  obtain ⟨events, buf', h⟩ := reassembles_total (s.buf ++ chunk)
  exact ⟨events, buf', exec_feed_of_reassembles hc h, h, fun _ _ h2 => reassembles_unique h2 h⟩

/-! The loop's steps (R77 to R84). -/

/-- Settles O12, by rule R77. -/
theorem feedWithoutStartEmptiesBuffer : Obligations.FeedWithoutStartEmptiesBuffer :=
  fun _ _ hc h => exec_feed_silent hc (.noStart h)

/-- Settles O13: what the loop does from the START on, it does behind the noise. -/
theorem feedDropsNoiseBeforeStart : Obligations.FeedDropsNoiseBeforeStart := by
  intro chunk noise rest s hc hnoise hbuf
  obtain ⟨events, buf', h⟩ := reassembles_total (Config.startByte :: rest)
  rw [exec_feed_nil (s := { s with buf := _ }) h]
  exact exec_feed_of_reassembles hc (hbuf ▸ reassembles_noise hnoise h)

/-- Settles O14, by rule R79. -/
theorem feedShortBufferWaits : Obligations.FeedShortBufferWaits :=
  fun _ _ _ _ hc hnoise hbuf hshort => exec_feed_silent hc (hbuf ▸ .short hnoise hshort)

/-- Settles O15, by rule R81. -/
theorem feedOverflowDiscardsBuffer : Obligations.FeedOverflowDiscardsBuffer :=
  fun _ _ _ _ hc hnoise hbuf hend hlong => exec_feed_of_reassembles hc (hbuf ▸ .overflow hnoise hend hlong)

/-- At most 512 bytes from a START on without an END are quiescent (R86). -/
theorem quiescent_start {rest : List Byte} (hend : Config.endByte ∉ rest)
    (hlen : (Config.startByte :: rest).length ≤ 512) : Quiescent (Config.startByte :: rest) := by
  rcases Nat.lt_or_ge (Config.startByte :: rest).length Config.minFrame with hshort | h11
  · exact .inr (.inl ⟨rfl, hshort⟩)
  · exact .inr (.inr ⟨rfl, h11, hlen, hend⟩)

/-- Settles O16: behind the noise stands a quiescent BUF. -/
theorem feedWithinThresholdHolds : Obligations.FeedWithinThresholdHolds :=
  fun _ _ _ _ hc hnoise hbuf hend hlen => exec_feed_silent hc
    (hbuf ▸ reassembles_noise hnoise (reassembles_quiescent (quiescent_start hend hlen)))

/-- Settles O17: rule R84's loop goes on with the bytes behind the candidate, as an empty FEED does. -/
theorem feedCutsCandidate : Obligations.FeedCutsCandidate := by
  intro chunk noise body tail s hc hnoise hbody hbuf h11
  obtain ⟨events, buf', h⟩ := reassembles_total tail
  have cut := Reassembles.cut hnoise hbody h11 h
  rw [← hbuf] at cut
  rw [exec_feed_nil (s := { s with buf := tail, out := _ }) h, exec_feed_of_reassembles hc cut, List.append_assoc,
    List.singleton_append]
  cases validate (Config.startByte :: body ++ [Config.endByte]) with
  | ok m => rfl
  | err kind => rfl

/-! Quiescent buffers (R86 to R88). -/

/-- Settles O18: every exit of the loop is quiescent, and a quiescent BUF stays. -/
theorem feedLeavesQuiescentBuffer : Obligations.FeedLeavesQuiescentBuffer := by
  intro chunk s hc
  obtain ⟨events, buf', h⟩ := reassembles_total (s.buf ++ chunk)
  have hq := quiescent_of_reassembles h
  exact ⟨_, exec_feed_of_reassembles hc h, hq, exec_feed_nil_of_quiescent hq⟩

/-- Settles O19. -/
theorem emptyFeedIsNop : Obligations.EmptyFeedIsNop :=
  fun _ hq => ⟨exec_feed_nil_of_quiescent hq, rfl⟩

/-- Settles O5: NOP is the empty FEED where O19 says so. -/
theorem nopChangesNothing : Obligations.NopChangesNothing :=
  ⟨rfl, fun _ => ⟨rfl, exec_feed_nil_of_quiescent⟩⟩

/-- Settles O2: the empty BUF is the form Q1, and nothing has been emitted. -/
theorem resetMeetsInvariants : Obligations.ResetMeetsInvariants :=
  ⟨⟨.inl rfl, maxFeed_bounds⟩, List.forall_mem_nil _⟩

/-- A FEED, refused or accepted, leaves a quiescent BUF quiescent. -/
theorem quiescent_feedChunk (chunk : List Byte) {s : State} (h : Quiescent s.buf) :
    Quiescent (feedChunk chunk s).buf := by
  rcases Nat.lt_or_ge s.maxFeed chunk.length with hc | hc
  · rwa [feedChunk_refused hc]
  · rw [feedChunk_accepted hc]
    exact quiescent_of_reassembles (reassemble_iff.1 rfl)

/-- Every instruction keeps the invariant. -/
theorem stateInv_exec {i : Instr} {s t : State} (h : StateInv s) (he : exec i s = .next t) : StateInv t := by
  obtain ⟨hq, hmax⟩ := h
  rcases exec_cases i s with hi | hi | hi | ⟨chunk, hi⟩ <;> cases hi.symm.trans he
  · exact ⟨hq, hmax⟩
  · exact ⟨.inl rfl, hmax⟩
  · exact ⟨hq, hmax⟩
  · exact ⟨quiescent_feedChunk chunk hq, by rwa [feedChunk_maxFeed]⟩

/-- Every step keeps the invariant. -/
theorem stateInv_step {s t : State} (h : StateInv s) (hstep : step s = .next t) : StateInv t := by
  rcases step_cases s with ⟨_, hs⟩ | ⟨_, ⟨_, hs⟩ | ⟨_, hs⟩ | ⟨i, rest, _, hs⟩⟩ <;> rw [hs] at hstep
  · cases hstep
  · cases hstep; exact h
  · cases hstep; exact h
  · exact stateInv_exec (s := s.setPort rest) h hstep

/-- Settles O20: a quiescent BUF has at most 512 bytes. -/
theorem stepKeepsInvariant : Obligations.StepKeepsInvariant :=
  fun _ _ h hstep => have hinv := stateInv_step h hstep; ⟨hinv, quiescent_length hinv.1⟩

/-! The loop's bounds (R85, R89). -/

/-- Settles O26: any number of passes from the bound on computes the one outcome that the rules allow. -/
theorem loopEndsWithinHalfLength : Obligations.LoopEndsWithinHalfLength := by
  intro buf fuel hfuel
  obtain ⟨events, buf', h⟩ := reassembles_total buf
  rw [loop_of_reassembles h fuel hfuel, reassemble_iff.2 h]

/-- A candidate's event is no OVERFLOW. -/
theorem ofVerdict_ne_overflow (v : Verdict) : Event.ofVerdict v ≠ .overflow := by
  cases v <;> nofun

/-- The loop's OVERFLOW is its last event and its only one (R81, R89). -/
theorem overflow_last_of_reassembles {buf buf' : List Byte} {events before after : List Event}
    (h : Reassembles buf events buf') (he : events = before ++ .overflow :: after) :
    .overflow ∉ before ∧ after = [] := by
  induction h generalizing before with
  | noStart | short | hold => cases before <;> cases he
  | overflow =>
    rcases List.append_eq_singleton_iff.1 he.symm with ⟨rfl, hlast⟩ | ⟨_, hlast⟩
    · exact ⟨List.not_mem_nil, (List.cons.inj hlast).2⟩
    · cases hlast
  | cut _ _ _ _ ih =>
    rcases before with _ | ⟨event, before⟩
    · exact absurd (List.cons.inj he).1 (ofVerdict_ne_overflow _)
    · obtain ⟨rfl, hrest⟩ := List.cons.inj he
      obtain ⟨hbefore, hafter⟩ := ih hrest
      exact ⟨List.not_mem_cons_of_ne_of_not_mem (ofVerdict_ne_overflow _).symm hbefore, hafter⟩

/-- Settles O27: each event takes two bytes, and only the loop's exit gives an OVERFLOW. -/
theorem feedEventBound : Obligations.FeedEventBound := by
  intro chunk s hc
  obtain ⟨events, buf', h⟩ := reassembles_total (s.buf ++ chunk)
  have hlen := reassembles_length h
  refine ⟨_, events, exec_feed_of_reassembles hc h, rfl, by omega,
    fun _ _ he => overflow_last_of_reassembles h he, fun h512 => ?_⟩
  rw [List.length_append] at hlen
  omega

/-! A run that feeds a stream in chunks (R90, R92). -/

/-- The chunks are appended and reassembled one after the other: `FeedsTo buf chunks events buf'` says that from `buf` they
give `events` and leave `buf'` (R75, R90). -/
inductive FeedsTo : List Byte → List (List Byte) → List Event → List Byte → Prop where
  | nil {buf : List Byte} : FeedsTo buf [] [] buf
  | cons {buf chunk buf1 buf2 : List Byte} {chunks : List (List Byte)} {e1 e2 : List Event} :
      Reassembles (buf ++ chunk) e1 buf1 → FeedsTo buf1 chunks e2 buf2 → FeedsTo buf (chunk :: chunks) (e1 ++ e2) buf2

/-- A run begins with the FEED of its first chunk. -/
theorem feedAll_cons_next {chunk : List Byte} {chunks : List (List Byte)} {s t : State} :
    feedAll (chunk :: chunks) s = .next t ↔ s.refused = false ∧ feedAll chunks (feedChunk chunk s) = .next t := by
  refine performAll_cons_next.trans (and_congr_right fun _ => ⟨?_, fun h => ⟨_, rfl, h⟩⟩)
  rintro ⟨u, hu, h⟩
  cases hu
  exact h

/-- A run of accepted chunks does what `FeedsTo` says, and nothing else changes. -/
theorem feedAll_next_iff {chunks : List (List Byte)} {s t : State} (hc : ∀ c ∈ chunks, c.length ≤ s.maxFeed) :
    feedAll chunks s = .next t ↔ s.refused = false ∧
      ∃ events buf', FeedsTo s.buf chunks events buf' ∧ t = { s with buf := buf', out := s.out ++ events } := by
  induction chunks generalizing s with
  | nil =>
    refine performAll_nil_next.trans (and_congr_right fun _ => ⟨?_, ?_⟩)
    · rintro rfl
      exact ⟨[], s.buf, .nil, by rw [List.append_nil]⟩
    · rintro ⟨_, _, ⟨⟩, rfl⟩
      rw [List.append_nil]
  | cons chunk chunks ih =>
    obtain ⟨hfirst, hrest⟩ := List.forall_mem_cons.1 hc
    obtain ⟨e1, buf1, h1⟩ := reassembles_total (s.buf ++ chunk)
    rw [feedAll_cons_next, feedChunk_of_reassembles hfirst h1, ih (s := { s with buf := buf1, out := s.out ++ e1 }) hrest]
    refine and_congr_right fun hr => ⟨?_, ?_⟩
    · rintro ⟨_, e2, buf2, h2, rfl⟩
      exact ⟨_, _, .cons h1 h2, by rw [List.append_assoc]⟩
    · rintro ⟨_, _, hf, rfl⟩
      cases hf with | cons h1' h2 =>
      obtain ⟨rfl, rfl⟩ := reassembles_unique h1 h1'
      exact ⟨hr, _, _, h2, by rw [List.append_assoc]⟩

/-- What a run appends to OUT is what stands behind its start state's OUT. -/
theorem feedAll_events {chunks : List (List Byte)} {s t : State} (hc : ∀ c ∈ chunks, c.length ≤ s.maxFeed)
    (h : feedAll chunks s = .next t) :
    FeedsTo s.buf chunks (t.out.drop s.out.length) t.buf ∧
      t = { s with buf := t.buf, out := s.out ++ t.out.drop s.out.length } := by
  obtain ⟨_, events, buf', hf, rfl⟩ := (feedAll_next_iff hc).1 h
  rw [List.drop_left]
  exact ⟨hf, rfl⟩

/-- More bytes behind a BUF whose loop emits no OVERFLOW only prolong that loop: no cut point moves (R90). -/
theorem reassembles_append {buf more buf1 buf2 : List Byte} {e1 e2 : List Event} (h1 : Reassembles buf e1 buf1)
    (hno : .overflow ∉ e1) (h2 : Reassembles (buf1 ++ more) e2 buf2) : Reassembles (buf ++ more) (e1 ++ e2) buf2 := by
  induction h1 with
  | noStart hnoise => exact reassembles_noise hnoise h2
  | short hnoise | hold hnoise =>
    rw [List.append_assoc]
    exact reassembles_noise hnoise h2
  | overflow => exact absurd (List.mem_singleton_self _) hno
  | @cut noise body tail _ _ hnoise hbody h11 _ ih =>
    have hlen : Config.minFrame ≤ (Config.startByte :: body ++ Config.endByte :: (tail ++ more)).length := by
      rw [← List.cons_append, ← List.append_assoc, List.length_append]
      exact Nat.le_add_right_of_le h11
    have cut := Reassembles.cut hnoise hbody hlen (ih (List.not_mem_of_not_mem_cons hno) h2)
    simpa using cut

/-- Chunks fed without an OVERFLOW give what one loop over the whole stream gives (R90). -/
theorem reassembles_of_feedsTo {buf buf' : List Byte} {chunks : List (List Byte)} {events : List Event}
    (h : FeedsTo buf chunks events buf') (hq : Quiescent buf) (hno : .overflow ∉ events) :
    Reassembles (buf ++ chunks.flatten) events buf' := by
  induction h with
  | nil =>
    rw [List.flatten_nil, List.append_nil]
    exact reassembles_quiescent hq
  | cons h1 _ ih =>
    obtain ⟨hno1, hno2⟩ := not_or.1 (mt List.mem_append.2 hno)
    have h2 := ih (quiescent_of_reassembles h1) hno2
    rw [List.flatten_cons, ← List.append_assoc]
    exact reassembles_append h1 hno1 h2

/-- Settles O50: either chunking gives the one outcome of the whole stream. -/
theorem chunkSizeIndependence : Obligations.ChunkSizeIndependence := by
  intro s t chunks hq hc h hno
  obtain ⟨hf, ht⟩ := feedAll_events hc h
  have whole := reassembles_of_feedsTo hf hq hno
  refine ⟨fun hfit => ?_, fun t' others hc' hsame h' hno' => ?_⟩
  · rw [exec_feed_of_reassembles hfit whole, ← ht]
  · obtain ⟨hf', ht'⟩ := feedAll_events hc' h'
    have whole' := reassembles_of_feedsTo hf' hq hno'
    rw [hsame] at whole'
    obtain ⟨hevents, hbuf⟩ := reassembles_unique whole' whole
    rw [ht', ht, hevents, hbuf]

/-! A frame spread over several FEEDs (R91, R121). -/

theorem FeedsTo.append {buf buf1 buf2 : List Byte} {before after : List (List Byte)} {e1 e2 : List Event}
    (h1 : FeedsTo buf before e1 buf1) (h2 : FeedsTo buf1 after e2 buf2) :
    FeedsTo buf (before ++ after) (e1 ++ e2) buf2 := by
  induction h1 with
  | nil => exact h2
  | cons h _ ih =>
    rw [List.append_assoc]
    exact .cons h (ih h2)

theorem FeedsTo.singleton {buf chunk buf' : List Byte} {events : List Event}
    (h : Reassembles (buf ++ chunk) events buf') : FeedsTo buf [chunk] events buf' := by
  simpa using FeedsTo.cons h .nil

section partialFrame
variable {inner : List Byte}

/-- The part of a frame before its END, as far as 512 bytes of it, is quiescent (R82, R86). -/
theorem quiescent_of_prefix {part : List Byte} (hinner : Config.endByte ∉ inner)
    (h : part <+: Config.startByte :: inner) (hlen : part.length ≤ 512) : Quiescent part := by
  rcases List.prefix_cons_iff.1 h with rfl | ⟨rest, rfl, hrest⟩
  · exact .inl rfl
  · exact quiescent_start (fun hmem => hinner (hrest.subset hmem)) hlen

/-- More than 512 bytes of it are discarded (R81). -/
theorem reassembles_prefix_overflow {part : List Byte} (hinner : Config.endByte ∉ inner)
    (h : part <+: Config.startByte :: inner) (hlen : 512 < part.length) : Reassembles part [.overflow] [] := by
  rcases List.prefix_cons_iff.1 h with rfl | ⟨rest, rfl, hrest⟩
  · exact absurd hlen (Nat.not_lt_zero _)
  · exact .overflow (noise := []) List.not_mem_nil (fun hmem => hinner (hrest.subset hmem)) hlen

/-- Fed in any chunks, at most 512 bytes of it gather in BUF without an event. -/
theorem feedsTo_prefix {buf : List Byte} {chunks : List (List Byte)} (hinner : Config.endByte ∉ inner)
    (h : buf ++ chunks.flatten <+: Config.startByte :: inner) (hlen : (buf ++ chunks.flatten).length ≤ 512) :
    FeedsTo buf chunks [] (buf ++ chunks.flatten) := by
  induction chunks generalizing buf with
  | nil =>
    rw [List.flatten_nil, List.append_nil]
    exact .nil
  | cons chunk chunks ih =>
    rw [List.flatten_cons, ← List.append_assoc] at h hlen ⊢
    have hpart := List.prefix_append (buf ++ chunk) chunks.flatten
    have hq := quiescent_of_prefix hinner (hpart.trans h) (Nat.le_trans hpart.length_le hlen)
    exact .cons (e1 := []) (reassembles_quiescent hq) (ih h hlen)

end partialFrame

/-- A frame is delivered only out of a BUF that holds all its bytes. -/
theorem length_le_of_frameOk {buf buf' : List Byte} {events : List Event} {m : Message}
    (h : Reassembles buf events buf') (hm : .frameOk m ∈ events) : (encodeMessage m).length ≤ buf.length := by
  induction h with
  | noStart | short | hold => cases hm
  | overflow => cases List.mem_singleton.1 hm
  | @cut noise body tail _ _ _ _ _ _ ih =>
    rcases List.mem_cons.1 hm with hv | htail
    · have hok : validate (Config.startByte :: body ++ [Config.endByte]) = .ok m := by
        cases hverdict : validate (Config.startByte :: body ++ [Config.endByte]) with
        | ok m' => rw [hverdict] at hv; cases hv; rfl
        | err kind => rw [hverdict] at hv; cases hv
      obtain ⟨_, hframe⟩ := validateAcceptsOnlyFrames _ m hok
      rw [← hframe]
      simp only [List.length_append, List.length_cons, List.length_nil]
      omega
    · have := ih htail
      simp only [List.length_append, List.length_cons]
      omega

/-- Over several FEEDs, a frame is delivered only if BUF and the chunks hold as many bytes as it has. -/
theorem length_le_of_feedsTo_frameOk {buf buf' : List Byte} {chunks : List (List Byte)} {events : List Event}
    {m : Message} (h : FeedsTo buf chunks events buf') (hm : .frameOk m ∈ events) :
    (encodeMessage m).length ≤ buf.length + chunks.flatten.length := by
  induction h with
  | nil => cases hm
  | cons h1 _ ih =>
    rw [List.flatten_cons, List.length_append, ← Nat.add_assoc, ← List.length_append]
    rcases List.mem_append.1 hm with hm | hm
    · exact Nat.le_add_right_of_le (length_le_of_frameOk h1 hm)
    · have hshrink := reassembles_length h1
      have := ih hm
      omega

/-- Bytes fed of a frame that still lacks some are a part of it before its END. -/
theorem prefix_of_missing {m : Message} {part missing : List Byte} (h : part ++ missing = encodeMessage m)
    (hmissing : missing ≠ []) : part <+: Config.startByte :: innerBytes m := by
  rw [encodeMessage_eq_innerBytes] at h
  have hpart : part <+: Config.startByte :: innerBytes m ++ [Config.endByte] := ⟨missing, h⟩
  rcases List.prefix_concat_iff.1 hpart with hwhole | hpart
  · rw [hwhole] at h
    exact absurd (List.append_right_eq_self.1 h) hmissing
  · exact hpart

/-- A frame delivered from chunks has its last bytes in one chunk; before that chunk at most 512 bytes
stood in BUF, all of them the frame's. An earlier chunk beyond that number would have made BUF overflow, and too few bytes are
left then (R81, R91). -/
theorem last_chunk_of_delivered {m : Message} {buf buf' : List Byte} {chunks : List (List Byte)} {events : List Event}
    (hclean : CleanInside m) (hbuf : buf.length ≤ 512)
    (hstream : buf ++ chunks.flatten = encodeMessage m) (h : FeedsTo buf chunks events buf')
    (hm : .frameOk m ∈ events) :
    ∃ before chunk after, chunks = before ++ chunk :: after ∧ after.flatten = [] ∧
      FeedsTo buf before [] (buf ++ before.flatten) ∧ (buf ++ before.flatten).length ≤ 512 := by
  induction h with
  | nil => cases hm
  | @cons buf chunk buf1 _ chunks e1 e2 h1 h2 ih =>
    by_cases hlast : chunks.flatten = []
    · exact ⟨[], chunk, chunks, rfl, hlast, by simpa using FeedsTo.nil, by simpa using hbuf⟩
    rw [List.flatten_cons, ← List.append_assoc] at hstream
    have hpart := prefix_of_missing hstream hlast
    rcases Nat.lt_or_ge 512 (buf ++ chunk).length with hover | hfit
    · obtain ⟨rfl, rfl⟩ := reassembles_unique h1 (reassembles_prefix_overflow hclean hpart hover)
      have hrest := length_le_of_feedsTo_frameOk h2 (by simpa using hm)
      rw [← hstream, List.length_append, List.length_nil] at hrest
      omega
    · have hquiet := reassembles_quiescent (quiescent_of_prefix hclean hpart hfit)
      obtain ⟨rfl, rfl⟩ := reassembles_unique h1 hquiet
      obtain ⟨before, last, after, rfl, hafter, hbefore, hlen⟩ := ih hfit hstream hm
      refine ⟨chunk :: before, last, after, rfl, hafter, ?_⟩
      rw [List.flatten_cons, ← List.append_assoc]
      exact ⟨.cons (e1 := []) hquiet hbefore, hlen⟩

/-- Settles O51: what BUF does not hold before the last chunk, that chunk brings. -/
theorem longFrameNeedsLongFeed : Obligations.LongFrameNeedsLongFeed := by
  intro m s t chunks _ hclean _ hbuf hc hstream hrun hm
  obtain ⟨hf, -⟩ := feedAll_events hc hrun
  rw [hbuf] at hf
  obtain ⟨before, chunk, after, rfl, hafter, hbefore, hlen⟩ :=
    last_chunk_of_delivered hclean (Nat.zero_le _) hstream hf hm
  have hr := (performAll_next_refused hrun).1
  have hrunBefore := (feedAll_next_iff (List.forall_mem_append.1 hc).1).2 ⟨hr, _, _, by rwa [hbuf], rfl⟩
  refine ⟨before, chunk, after, _, rfl, hafter, ?_, hrunBefore, rfl⟩
  have htotal := congrArg List.length hstream
  rw [List.flatten_append, List.flatten_cons, hafter, List.append_nil, List.length_append] at htotal
  rw [List.nil_append] at hlen
  omega

/-! Byte by byte (R90 to R92). -/

/-- A sequence cut into chunks of one byte. -/
abbrev singles (bytes : List Byte) : List (List Byte) := bytes.map fun b => [b]

theorem singles_flatten (bytes : List Byte) : (singles bytes).flatten = bytes := List.flatMap_singleton' bytes

/-- Byte by byte from an empty BUF, at most 512 bytes of a frame before its END and then one byte more: the loop gets to see
exactly these together. -/
theorem feedsTo_singles_concat {inner part buf' : List Byte} {b : Byte} {events : List Event}
    (hinner : Config.endByte ∉ inner) (hpart : part <+: Config.startByte :: inner) (hlen : part.length ≤ 512)
    (h : Reassembles (part ++ [b]) events buf') : FeedsTo [] (singles (part ++ [b])) events buf' := by
  have gathered := feedsTo_prefix (buf := []) (chunks := singles part) hinner
  rw [List.nil_append, singles_flatten] at gathered
  rw [singles, List.map_append]
  exact (gathered hpart hlen).append (.singleton h)

/-- A run byte by byte is accepted. -/
theorem feedAll_singles {bytes buf' : List Byte} {s : State} {events : List Event} (hbuf : s.buf = [])
    (hr : s.refused = false) (hmax : 1 ≤ s.maxFeed) (h : FeedsTo [] (singles bytes) events buf') :
    feedAll (singles bytes) s = .next { s with buf := buf', out := s.out ++ events } := by
  have accepted : ∀ c ∈ singles bytes, c.length ≤ s.maxFeed := List.forall_mem_map.2 fun _ _ => hmax
  exact (feedAll_next_iff accepted).2 ⟨hr, events, buf', by rwa [hbuf], rfl⟩

/-- Settles O52: the frame's END, or else its 513th byte, comes upon at most 512 bytes in BUF. -/
theorem byteAtATime : Obligations.ByteAtATime := by
  intro m s hw hclean hbuf hr hmax
  have hframe := encodeMessage_eq_innerBytes m
  have hlength : (encodeMessage m).length = (Config.startByte :: innerBytes m).length + 1 := by simp [hframe]
  refine ⟨fun hshort => ?_, fun hlong => ?_⟩
  · have delivered := reassembles_encodeMessage (noise := []) hw hclean List.not_mem_nil
    rw [List.nil_append, hframe] at delivered
    have fed := feedsTo_singles_concat hclean (List.prefix_refl _) (by omega) delivered
    rw [← hframe] at fed
    rw [feedAll_singles hbuf hr hmax fed, ← hbuf]
  · have hin : 512 < (Config.startByte :: innerBytes m).length := by omega
    have htake : (encodeMessage m).take 513 =
        (Config.startByte :: innerBytes m).take 512 ++ [(Config.startByte :: innerBytes m)[512]] := by
      rw [hframe, List.take_append_of_le_length hin, List.take_append_getElem]
    have overflows := reassembles_prefix_overflow hclean (List.take_prefix 513 (Config.startByte :: innerBytes m))
      (by rw [List.length_take]; omega)
    rw [← List.take_append_getElem hin] at overflows
    have fed := feedsTo_singles_concat hclean (List.take_prefix 512 _) (List.length_take_le 512 _) overflows
    rw [← htake] at fed
    rw [feedAll_singles hbuf hr hmax fed, ← hbuf]

end Sys2Proof.Machine
end

section
/-! The statement of 60_exceptions.md: the two ways in which a step performs no operation, for want of one and after a
refused one. -/

namespace Sys2Proof.Machine

/-- The step of an empty port: nothing is issued (R111, log 3). -/
theorem step_of_nothingIssued {s : State} (hr : s.refused = false) (hport : s.hostPort = []) : step s = .next s := by
  have hd : decodeHostOp s.hostPort = .reject .noOperation := by rw [hport]; rfl
  simp [step, performNext, hr, hd]

/-- The step of a state that holds a refused operation, whatever is on its port (R92, log 4). -/
theorem step_of_refused {s : State} (hr : s.refused = true) : step s = .refused .afterRefusedOperation := by
  simp [step, performNext, hr]

/-- Settles O4: the step looks at REFUSED before it reads the port, and the decoder finds no operation on an empty port. -/
theorem stepIdlesOrStops : Obligations.StepIdlesOrStops :=
  ⟨fun _ hr hport => step_of_nothingIssued hr hport, fun _ hr => step_of_refused hr⟩

end Sys2Proof.Machine
end

section
/-! The statements of 70_reset_and_hazards.md: what a reset leaves, a frame that holds an END before its own, and a START that
is pending when a frame is fed. -/

namespace Sys2Proof.Machine

open Sys2Proof.Safety

/-! Reset (R113, R114, R122). -/

/-- RESET empties BUF and touches nothing else (R114). -/
theorem exec_reset (s : State) : exec .reset s = .next (s.setBuf []) := rfl

/-- Settles O1, field by field. -/
theorem resetValues : Obligations.ResetValues :=
  ⟨⟨rfl, rfl, rfl⟩, fun _ _ => ⟨rfl, rfl, rfl⟩, fun s => ⟨_, exec_reset s, rfl, rfl, rfl⟩⟩

/-- Settles O6. -/
theorem resetEmptiesBuffer : Obligations.ResetEmptiesBuffer :=
  ⟨rfl, exec_reset, State.powerOn_buf⟩

/-- Settles O7: BUF is empty after RESET, so the FEED finds no START (O12). -/
theorem resetLosesPartialFrame : Obligations.ResetLosesPartialFrame :=
  fun s rest hfit hstart => ⟨s.setBuf [], exec_reset s, feedWithoutStartEmptiesBuffer rest (s.setBuf []) hfit hstart⟩

/-! A frame with an inner END (R116). -/

/-- Everything a FEED emits, accepted or refused, is sound, whatever OUT held before (R69). -/
theorem feedChunk_emits_sound (chunk : List Byte) (s : State) :
    ∃ events, (feedChunk chunk s).out = s.out ++ events ∧ ∀ e ∈ events, EventSound e := by
  rcases Nat.lt_or_ge s.maxFeed chunk.length with hc | hc
  · exact ⟨[], by rw [feedChunk_refused hc, List.append_nil], List.forall_mem_nil _⟩
  · exact ⟨(reassemble (s.buf ++ chunk)).2, by rw [feedChunk_accepted hc],
      eventSound_of_reassembles (reassemble_iff.1 rfl)⟩

/-- Every instruction completes and emits sound events only. -/
theorem exec_emits_sound (i : Instr) (s : State) :
    ∃ t events, exec i s = .next t ∧ t.out = s.out ++ events ∧ ∀ e ∈ events, EventSound e := by
  rcases exec_cases i s with h | h | h | ⟨chunk, h⟩
  · exact ⟨_, [], h, (List.append_nil _).symm, List.forall_mem_nil _⟩
  · exact ⟨_, [], h, (List.append_nil _).symm, List.forall_mem_nil _⟩
  · exact ⟨_, [], h, (List.append_nil _).symm, List.forall_mem_nil _⟩
  · obtain ⟨events, hout, hsound⟩ := feedChunk_emits_sound chunk s
    exact ⟨_, events, h, hout, hsound⟩

/-- Sound events deliver no frame that holds an inner END. -/
theorem frameOk_notMem_of_sound {m : Message} {events : List Event} (hcut : ¬ CleanInside m)
    (hsound : ∀ e ∈ events, EventSound e) : .frameOk m ∉ events :=
  fun hm => hcut (hsound _ hm).2

/-- Settles O48: such a frame's FRAME_OK is not sound. -/
theorem innerEndIsNeverDelivered : Obligations.InnerEndIsNeverDelivered := by
  intro m i s hcut
  obtain ⟨t, events, hexec, hout, hsound⟩ := exec_emits_sound i s
  exact ⟨t, events, hexec, hout, frameOk_notMem_of_sound hcut hsound⟩

/-- A 16-bit field that stands inside the front part of a sequence is read there. -/
theorem be16_append_left {a : List Byte} {i : Nat} (b : List Byte) (h : i + 1 < a.length) : be16 (a ++ b) i = be16 a i := by
  rw [be16, byteAt_append_left b (Nat.lt_of_succ_lt h), byteAt_append_left b h, be16]

/-- What lacks bytes by the length fields of the whole lacks them by its own: either PAYLOAD_LEN stands in it, or it ends
before the 11 bytes and the topic that TOPIC_LEN announces (R61, R62). -/
theorem lt_expectedLength_of_append {s rest : List Byte} (h11 : 11 ≤ s.length)
    (h : s.length < expectedLength (s ++ rest)) : s.length < expectedLength s := by
  have htopic : byteAt (s ++ rest) 5 = byteAt s 5 := byteAt_append_left rest (by omega)
  rw [expectedLength, htopic] at h
  rw [expectedLength]
  rcases Nat.lt_or_ge (6 + (byteAt s 5).toNat + 1) s.length with hfield | hfield
  · rwa [be16_append_left rest hfield] at h
  · omega

/-- A part from the front of an accepted sequence never comes past the length checks (R60 to R62). -/
theorem validate_proper_prefix {s rest : List Byte} {m : Message} (hok : validate (s ++ rest) = .ok m) (hs : s ≠ [])
    (hrest : rest ≠ []) : validate s = .err .tooShort ∨ validate s = .err .lenOverrun := by
  obtain ⟨hstart, hlen, -⟩ := validate_ok hok
  rw [byteAt_append_left rest (List.length_pos_iff.2 hs)] at hstart
  rcases Nat.lt_or_ge s.length 11 with hshort | h11
  · exact .inl (validate_tooShort hstart hshort)
  · have hmissing : s.length < expectedLength (s ++ rest) := by
      rw [hlen, List.length_append]
      exact Nat.lt_add_of_pos_right (List.length_pos_iff.2 hrest)
    exact .inr (validate_lenOverrun hstart h11 (lt_expectedLength_of_append h11 hmissing))

/-- A frame with an inner END, divided at its first END, behind which stands at least its own END (R116). -/
theorem encodeMessage_split_innerEnd {m : Message} (hcut : ¬ CleanInside m) :
    ∃ body tail, Config.endByte ∉ body ∧ tail ≠ [] ∧
      encodeMessage m = Config.startByte :: body ++ Config.endByte :: tail := by
  rcases split_at_first Config.endByte (innerBytes m) with hclean | ⟨body, inner, hbody, hinner⟩
  · exact absurd hclean hcut
  · exact ⟨body, inner ++ [Config.endByte], hbody, by simp, by simp [encodeMessage_eq_innerBytes, hinner]⟩

/-- Settles O47: the first candidate is a frame's part from the front, and the events behind it are sound. -/
theorem innerEndCutsFrame : Obligations.InnerEndCutsFrame := by
  intro m s hw hcut hstart hfit
  obtain ⟨body, tail, hbody, htail, hframe⟩ := encodeMessage_split_innerEnd hcut
  obtain ⟨events, buf', hrest⟩ := reassembles_total tail
  have h11 : Config.minFrame ≤ (Config.startByte :: body ++ Config.endByte :: tail).length := by
    rw [← hframe, encodeMessage_length, Nat.add_assoc]
    exact Nat.le_add_right _ _
  have hfeed := Reassembles.cut hstart hbody h11 hrest
  rw [List.append_assoc, ← hframe] at hfeed
  have hok : validate ((Config.startByte :: body ++ [Config.endByte]) ++ tail) = .ok m := by
    rw [List.append_assoc, List.singleton_append, ← hframe, validate_encodeMessage hw]
  have hnone := frameOk_notMem_of_sound hcut (eventSound_of_reassembles hrest)
  rcases validate_proper_prefix hok (by simp) htail with hv | hv <;> rw [hv] at hfeed
  · exact ⟨_, .tooShort, events, exec_feed_of_reassembles hfit hfeed, rfl, .inl rfl, hnone⟩
  · exact ⟨_, .lenOverrun, events, exec_feed_of_reassembles hfit hfeed, rfl, .inr rfl, hnone⟩

/-! A START that is pending when a frame is fed (R119). -/

/-- A candidate's event delivers a message only if the candidate is that message's frame (R58, R83). -/
theorem eq_encodeMessage_of_ofVerdict {candidate : List Byte} {m : Message}
    (h : Event.ofVerdict (validate candidate) = .frameOk m) : candidate = encodeMessage m := by
  cases hv : validate candidate with
  | ok m' =>
    rw [hv] at h
    cases h
    exact (validateAcceptsOnlyFrames candidate m hv).2
  | err kind =>
    rw [hv] at h
    cases h

/-- A START without an END behind it and a frame without an inner END make one candidate, cut at the frame's END (R83, R119). -/
theorem reassembles_pending_encodeMessage {m : Message} {pending : List Byte} (hclean : CleanInside m)
    (hpending : Config.endByte ∉ pending) :
    Reassembles (Config.startByte :: pending ++ encodeMessage m)
      [Event.ofVerdict (validate (Config.startByte :: pending ++ encodeMessage m))] [] := by
  have hbody : Config.endByte ∉ pending ++ Config.startByte :: innerBytes m := by
    rw [List.mem_append, List.mem_cons, not_or, not_or]
    exact ⟨hpending, by decide, hclean⟩
  have hcandidate : Config.startByte :: (pending ++ Config.startByte :: innerBytes m) ++ [Config.endByte] =
      Config.startByte :: pending ++ encodeMessage m := by simp [encodeMessage_eq_innerBytes]
  have h11 : Config.minFrame ≤ (Config.startByte :: pending ++ encodeMessage m).length := by
    rw [List.length_append, encodeMessage_length, Config.minFrame]
    omega
  rw [← hcandidate] at h11 ⊢
  exact .cut (noise := []) List.not_mem_nil hbody h11 (.noStart List.not_mem_nil)

/-- Settles O49: the candidate is longer than the frame. -/
theorem pendingStartSwallowsFrame : Obligations.PendingStartSwallowsFrame := by
  intro m pending s _ hclean hbuf hpending hfit
  have hfeed := reassembles_pending_encodeMessage hclean hpending
  rw [← hbuf] at hfeed
  refine ⟨_, exec_feed_of_reassembles hfit hfeed, fun hdelivered => ?_⟩
  have hempty : s.buf = [] := List.append_left_eq_self.1 (eq_encodeMessage_of_ofVerdict hdelivered)
  exact List.cons_ne_nil _ _ (hbuf.symm.trans hempty)

end Sys2Proof.Machine
end

section
/-! A program of one line, and FEEDBYTES without an operand (log 14). -/

namespace Sys2Proof.Machine

/-- A line that the assembler takes is assembled alone to the encodings of its operations (R46, R49). -/
theorem assemble_singleton {n : Nat} {op : AsmOp} {is : List Instr} (h : op.expand n = some is) :
    assemble n [op] = some (encodeProgram is) := by
  have hprogram : expandProgram n [op] = some is := by
    simp only [expandProgram, h, List.append_nil]
  rw [assemble, hprogram, Option.map_some]

/-- Settles O56: the line has one FEED per operand, so none, and a program of no operation has no byte. -/
theorem feedBytesOfNothing : Obligations.FeedBytesOfNothing := by
  intro n
  have hexpand : (AsmOp.feedBytes []).expand n = some [] := rfl
  exact ⟨hexpand, assemble_singleton hexpand⟩

end Sys2Proof.Machine
end
